-- ==== Sys2Proof/Word.lean ====
section
/-! DEFINITION. The words of the register port (00_scope.md R8) and the bytes of its lanes (20_memory.md R64). -/

namespace Sys2Proof

/-- Every register and the bus data are 32 bits wide (R8). -/
abbrev Word := BitVec 32

/-- One byte lane of the bus (R64). -/
abbrev Byte := BitVec 8

/-- A bit string (R9): index 0 is the first bit, each element 0 (false) or 1 (true). -/
abbrev Bits := List Bool

end Sys2Proof
end

