-- ==== Sys2Proof/Config.lean ====
section
/-! DEFINITION. What an implementation or the platform fixes (00_scope.md R7), and the free values: constants with
no body, so that no proof can see what they are. -/

namespace Sys2Proof

/-- The three bit buffers of 10_state.md R30. -/
inductive Buf where
  | a | g | y
  deriving DecidableEq, Repr

/-- The parameters of R7. They are carried in the state and never change, so that every statement about a state is
a statement about every configuration. `LAT` is not modelled (70_reset_and_hazards.md R223; log 12). CFG shows the legal
capacity 32768 as 0 (10_state.md R25; log 19). -/
structure Params where
  /-- `L_MAX`: capacity of buffers A and Y in bits -/
  lMax : Nat
  /-- `G_MAX`: capacity of buffer G in bits -/
  gMax : Nat
  /-- `BASE`: bus byte address of register offset 0 -/
  base : Nat
  deriving DecidableEq, Repr

namespace Config

/-- FREE VALUE (log 3, DESIGN CHOICE; safe): which multiple of 0x4000 the platform assigned as BASE. The spec leaves it OPEN (R7, R65). -/
opaque baseSlot : Nat

/-- FREE VALUE (log 4, DEDUCED; safe): what draw number `n` gives bit `j` of a buffer at a reset (10_state.md R38,
70_reset_and_hazards.md R214: one arbitrary value per bit). -/
opaque resetBit (n : Nat) (x : Buf) (j : Nat) : Bool

/-- FREE VALUE (log 5, DEDUCED; safe): what draw number `n` gives a read of RESULT, Y_LEN, an A_BITS or a Y_BITS word
while BUSY = 1 (10_state.md R47: a fresh unspecified 32-bit value for each read). -/
opaque busyRead (n : Nat) : Word

/-- FREE VALUE (log 6, DEDUCED; safe): what draw number `n` gives for the number of host events that come between an
acceptance and its completion (20_memory.md R70: any finite number). -/
opaque hostTurns (n : Nat) : Nat

end Config

/-- The reference configuration of R7 (log 2), at whatever BASE the platform assigned. -/
def Params.reference : Params := { lMax := 64, gMax := 33, base := 0x4000 * Config.baseSlot }

end Sys2Proof
end

