-- ==== Sys2Proof/Syntax.lean ====
section
/-! DEFINITION. The five commands (30_encoding.md R93), the events of the register port (20_memory.md R60, R70) and
the host notation (30_encoding.md R96 to R102). -/

namespace Sys2Proof

/-- One constructor per row of spec/opcode_table.json. The command word has no operand fields (R92). -/
inductive Instr where
  | crcRem      -- 0x1 CRC_REM
  | crcVerify   -- 0x2 CRC_VERIFY
  | hamRbits    -- 0x3 HAM_RBITS
  | hamEnc      -- 0x4 HAM_ENC
  | hamDec      -- 0x5 HAM_DEC
  deriving DecidableEq, Repr

/-- The registers of 10_state.md R24 that are not window words. -/
inductive Reg where
  | cfg | ctrl | cmd | status | result | arg | aLen | gLen | yLen
  deriving DecidableEq, Repr

/-- What an aligned offset of the aperture reaches (R24): a register, a reserved word, or word `w` of a window. -/
inductive Loc where
  | reg (r : Reg)
  | reserved
  | window (x : Buf) (w : Nat)
  deriving DecidableEq, Repr

/-- One event at the block's inputs (20_memory.md R70). Accesses carry their size in bytes, so that the accesses the
spec does not admit (R62) can be written down and refused. -/
inductive PortEvent where
  /-- `MemRead(addr, size)` -/
  | read (addr size : Nat)
  /-- `MemWrite(addr, size, v)` -/
  | write (addr size : Nat) (v : Word)
  /-- the reset input changes to this level (70_reset_and_hazards.md R210) -/
  | rst (level : Bool)
  deriving DecidableEq, Repr

/-- Values a host computes from its temporaries (log 11, DESIGN CHOICE: the spec gives no grammar for COND, nor for the
value `v` of `wr` and `wrw`). -/
inductive HostExp where
  | lit (n : Nat)
  | temp (t : Nat)
  /-- `t[hi:lo]` -/
  | field (t hi lo : Nat)
  | add (x y : HostExp)
  | xor (x y : HostExp)
  /-- `x << k` -/
  | shl (x : HostExp) (k : Nat)
  deriving DecidableEq, Repr

/-- The constant 32-bit value `v`. -/
def HostExp.word (v : Word) : HostExp := .lit v.toNat

/-- A branch condition on host temporaries (R97; log 11). -/
inductive HostCond where
  | eq (x y : HostExp)
  | gt (x y : HostExp)
  deriving DecidableEq, Repr

/-- The buffers whose strings `rdbits` reads (R102: X in {A, Y}). -/
inductive ReadBuf where
  | a | y
  deriving DecidableEq, Repr

/-- The buffer it is. -/
def ReadBuf.buf : ReadBuf → Buf
  | .a => .a
  | .y => .y

/-- The base statements of the host notation (R97), and the word reads of `rdbits` (R102), whose number only the run of
the program gives. Temporaries and labels are numbered. The value that `wr` and `wrw` write may be computed from
temporaries, so that a host can write what it has read (70_reset_and_hazards.md R219); R97 says only "32-bit `v`" (log 11,
DESIGN CHOICE). -/
inductive Stmt where
  | wr (r : Reg) (v : HostExp)
  | rd (r : Reg) (t : Nat)
  | wrw (x : Buf) (w : Nat) (v : HostExp)
  | rdw (x : Buf) (w : Nat) (t : Nat)
  /-- `rdw X[w] -> t+1+w` for `w` in `0 .. ceil(L/32)-1`, with `L` the value of temporary `t` (R102; log 13) -/
  | rdws (x : ReadBuf) (t : Nat)
  | label (l : Nat)
  | ifGoto (c : HostCond) (l : Nat)
  deriving DecidableEq, Repr

end Sys2Proof
end

