-- ==== Sys2Proof/WellFormed.lean ====
section
/-! DEFINITION. Which parameters, accesses and host statements the spec admits. -/

namespace Sys2Proof

/-- The legal parameter values of 00_scope.md R7. -/
abbrev Params.Legal (p : Params) : Prop :=
  2 ≤ p.lMax ∧ p.lMax ≤ 32768 ∧ 2 ≤ p.gMax ∧ p.gMax ≤ p.lMax ∧ p.base % 0x4000 = 0

/-- A command word has no operands (30_encoding.md R92), so every command is well formed. -/
def Instr.wf : Instr → Bool
  | .crcRem => true
  | .crcVerify => true
  | .hamRbits => true
  | .hamEnc => true
  | .hamDec => true

/-- The address lies in the aperture `BASE .. BASE + 0x3FFF` (20_memory.md R61, R65). -/
abbrev Params.InAperture (p : Params) (addr : Nat) : Prop :=
  p.base ≤ addr ∧ addr ≤ p.base + 0x3FFF

/-- Only 32-bit accesses at aligned offsets are admitted (20_memory.md R62). -/
abbrev Params.Aligned (p : Params) (addr size : Nat) : Prop :=
  size = 4 ∧ (addr - p.base) % 4 = 0

/-- The access is one of those the port admits (R61, R62). -/
abbrev Params.Admits (p : Params) (addr size : Nat) : Prop :=
  p.InAperture addr ∧ p.Aligned addr size

/-- The event is an admitted one, with `rst` as it stands (R62, R65; 70_reset_and_hazards.md R210). -/
def PortEvent.wf (p : Params) (rst : Bool) : PortEvent → Bool
  | .read addr size => !rst && decide (p.Admits addr size)
  | .write addr size _ => !rst && decide (p.Admits addr size)
  | .rst _ => true

/-- A base statement of 30_encoding.md R97: `wrw` names a window in {A, G}, and a window has 1024 words. -/
def Stmt.wf : Stmt → Bool
  | .wr _ _ => true
  | .rd _ _ => true
  | .wrw x w _ => decide (x ≠ .y) && decide (w < 1024)
  | .rdw _ w _ => decide (w < 1024)
  | .rdws _ _ => true
  | .label _ => true
  | .ifGoto _ _ => true

end Sys2Proof
end

