-- ==== Sys2Proof/Decode.lean ====
section
/-! DEFINITION. Decoding and encoding of command words (30_encoding.md R90 to R95) and the byte lanes a word travels
on (20_memory.md R64). -/

namespace Sys2Proof

/-- Why a command word selects no operation (30_encoding.md R95). -/
inductive Illegal where
  /-- RSV is not 0 -/
  | reservedBits
  /-- RSV is 0 and OP is 0x0 or 0x6 to 0xF -/
  | reservedOp
  /-- the bytes are not the four lanes of one word (R91: every command is one 32-bit word) -/
  | notOneWord
  deriving DecidableEq, Repr

/-- What decoding answers. -/
inductive Decoded where
  | command (i : Instr)
  | illegal (why : Illegal)
  deriving DecidableEq, Repr

/-- Field OP, bits 3:0 (R90). -/
def opField (c : Word) : BitVec 4 := c.extractLsb' 0 4

/-- Field RSV, bits 31:4 (R90). -/
def rsvField (c : Word) : BitVec 28 := c.extractLsb' 4 28

/-- `decode(c)` of R94, total on every word. -/
def decode (c : Word) : Decoded :=
  if rsvField c ≠ 0 then .illegal .reservedBits
  else
    match (opField c).toNat with
    | 1 => .command .crcRem
    | 2 => .command .crcVerify
    | 3 => .command .hamRbits
    | 4 => .command .hamEnc
    | 5 => .command .hamDec
    | _ => .illegal .reservedOp

/-- The command, where the word is one. -/
def Decoded.instr? : Decoded → Option Instr
  | .command i => some i
  | .illegal _ => none

/-- Lane `i` carries bits `8i+7 : 8i` of the value (R64). -/
def lane (v : Word) (i : Nat) : Byte := v.extractLsb' (8 * i) 8

/-- The four lanes of a word, lowest address first. -/
def lanes (v : Word) : List Byte := [lane v 0, lane v 1, lane v 2, lane v 3]

/-- The word that four lanes carry (R64: little-endian). -/
def ofLanes (b0 b1 b2 b3 : Byte) : Word :=
  BitVec.ofNat 32 (b0.toNat + 2 ^ 8 * b1.toNat + 2 ^ 16 * b2.toNat + 2 ^ 24 * b3.toNat)

/-- Decoding of any bytes: one command is exactly the four lanes of one word (R91). -/
def decodeLanes : List Byte → Decoded
  | [b0, b1, b2, b3] => decode (ofLanes b0 b1 b2 b3)
  | _ => .illegal .notOneWord

/-- The OP value of R93. -/
def Instr.op : Instr → BitVec 4
  | .crcRem => 1#4
  | .crcVerify => 2#4
  | .hamRbits => 3#4
  | .hamEnc => 4#4
  | .hamDec => 5#4

/-- The command word of R93: OP in bits 3:0, RSV = 0. -/
def encode (i : Instr) : Word := i.op.setWidth 32

/-- The low `nbits` bits of `w`, as the bytes of the lanes they travel on. -/
def tableBytes (nbits w : Nat) : List Byte :=
  (List.range 4).map fun i => BitVec.ofNat 8 ((w % 2 ^ nbits) >>> (8 * i))

/-- The command the decoder reads from an opcode-table word of `nbits` bits (log 14). -/
def decodeTableWord (nbits w : Nat) : Option Instr :=
  if w % 2 ^ nbits < 2 ^ 32 then (decodeLanes (tableBytes nbits w)).instr? else none

end Sys2Proof
end

