-- ==== Sys2Proof/Machine/Bits.lean ====
section
/-! DEFINITION. Bit strings (00_scope.md R9, R10) and their packing into 32-bit words (20_memory.md R63). -/

namespace Sys2Proof.Machine

/-- Bit `j` of a string, 0 where there is no such bit (20_memory.md R63: bits beyond the capacity read as 0;
log 17). -/
def bitAt (s : Bits) (j : Nat) : Bool := s.getD j false

/-- `zeros(k)` (00_scope.md R10). -/
def zeros (k : Nat) : Bits := List.replicate k false

/-- The first `n` bits `s[0 .. n-1]`, always of length `n`: bits that do not exist read as 0. -/
def prefixBits : Nat → Bits → Bits
  | 0, _ => []
  | n + 1, [] => false :: prefixBits n []
  | n + 1, b :: s => b :: prefixBits n s

/-- `result ++ zeros`, filled to the capacity `cap` (10_state.md R48). -/
def zeroFill (cap : Nat) (s : Bits) : Bits := s ++ zeros (cap - s.length)

/-- XOR of the pattern `p` onto the first bits of `s`. -/
def xorHead : Bits → Bits → Bits
  | [], _ => []
  | s, [] => s
  | b :: s, c :: p => (b ^^ c) :: xorHead s p

/-- XOR of the pattern `p` onto the window of `s` that begins at index `i`. -/
def xorAt : Bits → Nat → Bits → Bits
  | s, 0, p => xorHead s p
  | [], _ + 1, _ => []
  | b :: s, i + 1, p => b :: xorAt s i p

/-- The string with bit `j` inverted, `s[j] <- not s[j]`. -/
def flipBit (s : Bits) (j : Nat) : Bits := s.set j (!bitAt s j)

/-- `is_pow2(p)`: `p = 2^i` for some natural `i` (00_scope.md R10). -/
def isPow2 (p : Nat) : Bool := p == 2 ^ p.log2

/-- `Σ b(j) · 2^j`, the packing of 20_memory.md R63 and 30_encoding.md R99. -/
def packBits : Bits → Nat
  | [] => 0
  | b :: s => b.toNat + 2 * packBits s

/-- Window word `w` of a buffer (20_memory.md R63). -/
def windowWord (buf : Bits) (w : Nat) : Word :=
  BitVec.ofNat 32 (packBits (prefixBits 32 (buf.drop (32 * w))))

/-- A write of `v` to window word `w`: `X[32w + b] <- v[b]` for `b` in `0 .. 31`; bits beyond the capacity do not
exist, and `List.set` leaves the string alone there (20_memory.md R63). -/
def setWindowWord (buf : Bits) (w : Nat) (v : Word) : Bits :=
  (List.range 32).foldl (fun acc b => acc.set (32 * w + b) (v.getLsbD b)) buf

end Sys2Proof.Machine
end

