-- ==== Sys2Proof/Machine/State.lean ====
section
/-! DEFINITION. The state of the block (10_state.md), the model's own fields beside it, the reset state (R38), and
the reasons a step can stop. -/

namespace Sys2Proof.Machine

/-- The error kinds of STATUS.ERR (60_exceptions.md R180). Codes 6 to 15 are never produced. -/
inductive ErrorKind where
  | noError
  | invalidGenerator
  | inputTooShort
  | uncorrectableSyndrome
  | badLength
  | illegalCommand
  deriving DecidableEq, Repr

/-- Faults: none. No error stops the block (60_exceptions.md R181) and no behaviour of it is stuck
(93_implementation_defined.md section 1), so this type has no member (log 1). -/
inductive Fault where
  deriving DecidableEq, Repr

/-- Refusals: the accesses for which the spec says that a model has no step. All are safe: the model stops where the
hardware does something the spec does not say. -/
inductive Refusal where
  /-- an instruction with no meaning in this model; raised by an arm of `exec` only, and none is left; safe -/
  | notModelled (mnemonic : String)
  /-- raised by a host access while `rst` is asserted (70_reset_and_hazards.md R210); safe -/
  | accessDuringReset
  /-- raised by a host access outside `BASE .. BASE + 0x3FFF`, which is the platform's (20_memory.md R65); safe -/
  | outsideAperture
  /-- raised by a host access that is not an aligned 32-bit one (20_memory.md R62); safe -/
  | notAlignedWord
  deriving DecidableEq, Repr

/-- The state. Fields down to `y` are the block's (10_state.md R20 to R34); the last four are the model's own. -/
structure State where
  /-- L_MAX, G_MAX and BASE (00_scope.md R7): never changed by a step -/
  params : Params
  /-- level of the `rst` input (R20; 70_reset_and_hazards.md R210) -/
  rst : Bool
  /-- STATUS.BUSY, the engine's state bit (R23, R28) -/
  busy : Bool
  /-- STATUS.DONE (R28) -/
  done : Bool
  /-- STATUS.OVR (R28) -/
  ovr : Bool
  /-- STATUS.ERR (R28; 60_exceptions.md R180) -/
  err : ErrorKind
  /-- CTRL.IE (R26) -/
  ie : Bool
  /-- CMD, the last accepted command word (R27) -/
  cmd : Word
  /-- RESULT (R29) -/
  result : Word
  /-- ARG (R31) -/
  arg : Word
  /-- A_LEN (R32) -/
  aLen : Word
  /-- G_LEN (R33) -/
  gLen : Word
  /-- Y_LEN (R34) -/
  yLen : Word
  /-- buffer A, L_MAX bits (R30) -/
  a : Bits
  /-- buffer G, G_MAX bits (R30) -/
  g : Bits
  /-- buffer Y, L_MAX bits (R30) -/
  y : Bits
  /-- MODEL: the events that have not taken effect yet, oldest first (20_memory.md R70; log 7) -/
  port : List PortEvent
  /-- MODEL: what the host's reads returned, newest first (20_memory.md R60; log 7) -/
  replies : List Word
  /-- MODEL: how many host events still come before the pending completion (20_memory.md R70; log 6) -/
  hostTurns : Nat
  /-- MODEL: how many draws have been made; indexes the free values of Config (log 5) -/
  draws : Nat
  deriving DecidableEq, Repr

/-- The contents of a buffer of capacity `cap` after the reset that makes draw `n` (R38: each bit unspecified). -/
def drawnBuffer (n : Nat) (x : Buf) (cap : Nat) : Bits :=
  (List.range cap).map (Config.resetBit n x)

/-- The reset state of R38 under the parameters `p`, its buffers from draw `n`, with `rst` released. -/
def State.afterReset (p : Params) (n : Nat) : State where
  params := p
  rst := false
  busy := false
  done := false
  ovr := false
  err := .noError
  ie := false
  cmd := 0
  result := 0
  arg := 0
  aLen := 0
  gLen := 0
  yLen := 0
  a := drawnBuffer n .a p.lMax
  g := drawnBuffer n .g p.gMax
  y := drawnBuffer n .y p.lMax
  port := []
  replies := []
  hostTurns := 0
  draws := n + 1

/-- The machine right after reset, in the reference configuration (R38; log 2, log 4). -/
def State.reset : State := State.afterReset Params.reference 0

end Sys2Proof.Machine
end

