-- ==== Sys2Proof/Machine/Flags.lean ====
section
/-! DEFINITION. The flags and the register words computed from fields: STATUS (10_state.md R28), CTRL (R26), CFG
(R25) and the `irq` output (R37). -/

namespace Sys2Proof.Machine

/-- The number of an error kind (60_exceptions.md R180). -/
def ErrorKind.code : ErrorKind → BitVec 4
  | .noError => 0#4
  | .invalidGenerator => 1#4
  | .inputTooShort => 2#4
  | .uncorrectableSyndrome => 3#4
  | .badLength => 4#4
  | .illegalCommand => 5#4

/-- STATUS: BUSY at bit 0, DONE at bit 1, OVR at bit 2, ERR at bits 11:8, every other bit 0 (R28, R35). -/
def statusWord (s : State) : Word :=
  BitVec.ofNat 32 (s.busy.toNat + 2 * s.done.toNat + 4 * s.ovr.toNat + 2 ^ 8 * s.err.code.toNat)

/-- CTRL: IE at bit 0, every other bit 0 (R26, R35). -/
def ctrlWord (s : State) : Word := BitVec.ofNat 32 s.ie.toNat

/-- A field of CFG (R25): the capacity mod 2^16, where 0 stands for 32768. R25's formula alone would give 0x8000 there;
its sentence and the ruling 92_eei_decisions.md D35 ("with 0 meaning 32768") decide for 0 (log 19, DEDUCED). -/
def cfgField (cap : Nat) : Nat := if cap = 32768 then 0 else cap % 2 ^ 16

/-- CFG: the field of L_MAX at bits 15:0, the field of G_MAX at bits 31:16 (R25; log 19). -/
def cfgWord (p : Params) : Word := BitVec.ofNat 32 (cfgField p.lMax + 2 ^ 16 * cfgField p.gMax)

/-- `irq = CTRL.IE AND STATUS.DONE`, a level (R37; 60_exceptions.md R188). -/
def irq (s : State) : Bool := s.ie && s.done

end Sys2Proof.Machine
end

