-- ==== Sys2Proof/Machine/Operands.lean ====
section
/-! DEFINITION. The operands of the commands: fixed registers and buffer prefixes, all unsigned (30_encoding.md R92). -/

namespace Sys2Proof.Machine

/-- A_LEN as a natural: `m` of CRC_REM and HAM_ENC, `n` of CRC_VERIFY and HAM_DEC (10_state.md R32). -/
def lenA (s : State) : Nat := s.aLen.toNat

/-- G_LEN as a natural: the generator length `g` (10_state.md R33). -/
def lenG (s : State) : Nat := s.gLen.toNat

/-- ARG as a natural: `m` of HAM_RBITS, `r` of HAM_DEC (10_state.md R31). -/
def argNat (s : State) : Nat := s.arg.toNat

/-- `A[0 .. A_LEN-1]`: the data, the received string or the packet (R92). -/
def stringA (s : State) : Bits := prefixBits (lenA s) s.a

/-- `G[0 .. G_LEN-1]`: the generator (R92). -/
def generator (s : State) : Bits := prefixBits (lenG s) s.g

end Sys2Proof.Machine
end

