-- ==== Sys2Proof/Machine/Ops.lean ====
section
/-! DEFINITION. The named operations: the register map and the effect of reads and writes (10_state.md R24 to R49;
20_memory.md R60 to R63), acceptance (R41), completion and `raise` (60_exceptions.md R182, R183, R190), acknowledgment
(R191), reset (70_reset_and_hazards.md R210, R211), and which agent moves next (20_memory.md R70). -/

namespace Sys2Proof.Machine

/-! ## The register map -/

/-- The byte offset of a register (10_state.md R24). -/
def regOffset : Reg → Nat
  | .cfg => 0x0000
  | .ctrl => 0x0004
  | .cmd => 0x0008
  | .status => 0x000C
  | .result => 0x0010
  | .arg => 0x0014
  | .aLen => 0x0018
  | .gLen => 0x001C
  | .yLen => 0x0020

/-- The byte offset of a window (20_memory.md R63). -/
def windowBase : Buf → Nat
  | .a => 0x1000
  | .g => 0x2000
  | .y => 0x3000

/-- The byte offset of word `w` of a window. -/
def windowOffset (x : Buf) (w : Nat) : Nat := windowBase x + 4 * w

/-- What an aligned offset below 0x4000 reaches (10_state.md R24, R35). -/
def locate (off : Nat) : Loc :=
  if off < 0x1000 then
    match off with
    | 0x0000 => .reg .cfg
    | 0x0004 => .reg .ctrl
    | 0x0008 => .reg .cmd
    | 0x000C => .reg .status
    | 0x0010 => .reg .result
    | 0x0014 => .reg .arg
    | 0x0018 => .reg .aLen
    | 0x001C => .reg .gLen
    | 0x0020 => .reg .yLen
    | _ => .reserved
  else if off < 0x2000 then .window .a ((off - 0x1000) / 4)
  else if off < 0x3000 then .window .g ((off - 0x2000) / 4)
  else .window .y ((off - 0x3000) / 4)

/-! ## Named updates of the state -/

/-- The completion's epilogue: `STATUS.ERR <- code; STATUS.DONE <- 1; STATUS.BUSY <- 0` (60_exceptions.md R182). -/
def complete (k : ErrorKind) (s : State) : State := { s with err := k, done := true, busy := false }

/-- A write of the result string: all of Y, zero beyond the result, and its length (10_state.md R48; log 18). -/
def putY (bits : Bits) (s : State) : State :=
  { s with y := zeroFill s.params.lMax bits, yLen := BitVec.ofNat 32 bits.length }

/-- `RESULT <- v`. -/
def putResult (v : Nat) (s : State) : State := { s with result := BitVec.ofNat 32 v }

/-- `A[j] <- not A[j]`. -/
def flipA (j : Nat) (s : State) : State := { s with a := flipBit s.a j }

/-- STATUS.OVR <- 1: what a discarded write does (10_state.md R42, R43). -/
def overrun (s : State) : State := { s with ovr := true }

/-- An accepted write of `v` to CMD (10_state.md R41). The number of host events before the completion is drawn here
(20_memory.md R70; log 6). -/
def accept (v : Word) (s : State) : State :=
  { s with
    cmd := v, err := .noError, done := false, busy := true
    hostTurns := Config.hostTurns s.draws, draws := s.draws + 1 }

/-! ## Completion, raise and acknowledgment: the block's "trap entry" and "trap return" -/

/-- The end of a command without error (60_exceptions.md R182). -/
def finish (s : State) : Host.Outcome State Fault Refusal := .next (complete .noError s)

/-- `raise K`: the run ends at once, what it wrote before stays, and the completion reports `K` (60_exceptions.md
R183, R190). It is a next state: no error stops the block (R181). -/
def raise (k : ErrorKind) (s : State) : Host.Outcome State Fault Refusal := .next (complete k s)

/-- The completion of a command word that does not decode (30_encoding.md R95). -/
def completeIllegal (s : State) : Host.Outcome State Fault Refusal := raise .illegalCommand s

/-- A write of `v` to STATUS: a 1 in bit 1 clears DONE, a 1 in bit 2 clears OVR (10_state.md R44). -/
def writeStatus (v : Word) (s : State) : State :=
  { s with
    done := if v.getLsbD 1 then false else s.done
    ovr := if v.getLsbD 2 then false else s.ovr }

/-- Acknowledgment, the block's "trap return": a write of 1 to STATUS.DONE (60_exceptions.md R191; 30_encoding.md R101). -/
def acknowledge (s : State) : State := writeStatus 0x00000002 s

/-! ## Host writes and reads -/

/-- A write that is taken while the engine is idle and discarded, with OVR set, while it is busy (10_state.md R42, R43). -/
def unlessBusy (f : State → State) (s : State) : State := if s.busy then overrun s else f s

/-- A write of `v` to a register (10_state.md R41 to R46). -/
def writeReg (v : Word) : Reg → State → State
  | .cfg, s => s
  | .ctrl, s => { s with ie := v.getLsbD 0 }
  | .cmd, s => unlessBusy (accept v) s
  | .status, s => writeStatus v s
  | .result, s => s
  | .arg, s => unlessBusy (fun t => { t with arg := v }) s
  | .aLen, s => unlessBusy (fun t => { t with aLen := v }) s
  | .gLen, s => unlessBusy (fun t => { t with gLen := v }) s
  | .yLen, s => s

/-- A write of `v` to a window word (20_memory.md R63; 10_state.md R43, R46). -/
def writeWindow (v : Word) (w : Nat) : Buf → State → State
  | .a, s => unlessBusy (fun t => { t with a := setWindowWord t.a w v }) s
  | .g, s => unlessBusy (fun t => { t with g := setWindowWord t.g w v }) s
  | .y, s => s

/-- A host write of `v` at a location; reserved offsets ignore it (10_state.md R35, R46). -/
def writeLoc (v : Word) : Loc → State → State
  | .reg r, s => writeReg v r s
  | .reserved, s => s
  | .window x w, s => writeWindow v w x s

/-- The stored value of a register (10_state.md R25 to R34). -/
def storedReg (s : State) : Reg → Word
  | .cfg => cfgWord s.params
  | .ctrl => ctrlWord s
  | .cmd => s.cmd
  | .status => statusWord s
  | .result => s.result
  | .arg => s.arg
  | .aLen => s.aLen
  | .gLen => s.gLen
  | .yLen => s.yLen

/-- The bit buffer of a window. -/
def bufferOf (s : State) : Buf → Bits
  | .a => s.a
  | .g => s.g
  | .y => s.y

/-- The stored value at a location; reserved offsets read as zero (10_state.md R35; 20_memory.md R63). -/
def storedAt (s : State) : Loc → Word
  | .reg r => storedReg s r
  | .reserved => 0
  | .window x w => windowWord (bufferOf s x) w

/-- The locations whose reads are unspecified while BUSY = 1 (10_state.md R47). -/
def unstable : Loc → Bool
  | .reg .result => true
  | .reg .yLen => true
  | .window .a _ => true
  | .window .y _ => true
  | .reg .cfg => false
  | .reg .ctrl => false
  | .reg .cmd => false
  | .reg .status => false
  | .reg .arg => false
  | .reg .aLen => false
  | .reg .gLen => false
  | .reserved => false
  | .window .g _ => false

/-- A host read at a location: it hands one value to the host and changes no state of the block (10_state.md R47, R49). -/
def readLoc (l : Loc) (s : State) : State :=
  if s.busy && unstable l then
    { s with replies := Config.busyRead s.draws :: s.replies, draws := s.draws + 1 }
  else { s with replies := storedAt s l :: s.replies }

/-! ## Events -/

/-- An access at a bus address: refused where the spec admits none (20_memory.md R62, R65; 70_reset_and_hazards.md
R210), else done at the location it reaches (20_memory.md R60, R61; the order of the refusals is log 15). -/
def access (addr size : Nat) (f : Loc → State → State) (s : State) : Host.Outcome State Fault Refusal :=
  if s.rst then .refused .accessDuringReset
  else if ¬ s.params.InAperture addr then .refused .outsideAperture
  else if ¬ s.params.Aligned addr size then .refused .notAlignedWord
  else .next (f (locate (addr - s.params.base)) s)

/-- `rst` is asserted: the reset state of 10_state.md R38, whatever the engine was doing (70_reset_and_hazards.md
R210, R211). The events still to come and the replies already given are the host's and stay. -/
def assertReset (s : State) : State :=
  { State.afterReset s.params s.draws with rst := true, port := s.port, replies := s.replies }

/-- The reset input changes level. Asserted again while asserted, it holds the reset state (log 8). -/
def driveRst (level : Bool) (s : State) : State :=
  if level then (if s.rst then s else assertReset s) else { s with rst := false }

/-- One event at the block's inputs takes effect (20_memory.md R70). -/
def portEvent : PortEvent → State → Host.Outcome State Fault Refusal
  | .read addr size, s => access addr size readLoc s
  | .write addr size v, s => access addr size (writeLoc v) s
  | .rst level, s => .next (driveRst level s)

/-- The host's turn is taken: its event leaves the list, and one fewer comes before the pending completion. -/
def takeTurn (rest : List PortEvent) (s : State) : State :=
  { s with port := rest, hostTurns := s.hostTurns - 1 }

/-- Who moves next. -/
inductive Turn where
  | engine
  | host (e : PortEvent) (rest : List PortEvent)
  | idle
  deriving DecidableEq, Repr

/-- The completion is enabled whenever BUSY = 1 (60_exceptions.md R182); it comes after the drawn number of host
events, or when the host has none waiting (20_memory.md R70; log 6). -/
def turn (s : State) : Turn :=
  if s.busy && !s.rst && (s.hostTurns == 0 || s.port.isEmpty) then .engine
  else
    match s.port with
    | [] => .idle
    | e :: rest => .host e rest

end Sys2Proof.Machine
end

