-- ==== Sys2Proof/Machine/Crc.lean ====
section
/-! DEFINITION. The CRC polynomial divider and its two commands (40_crc.md). -/

namespace Sys2Proof.Machine

/-- Step `i` of the divider: where the window's leading bit is 1, XOR the window with the generator, in place (R111,
R112). -/
def crcStep (gs : Bits) (w : Bits) (i : Nat) : Bits := if bitAt w i then xorAt w i gs else w

/-- `crc_divide(W0, Gs, steps)`: the final `k = len(Gs) - 1` bits of the working string after the steps (R111). -/
def crcDivide (w0 gs : Bits) (steps : Nat) : Bits :=
  ((List.range steps).foldl (crcStep gs) w0).drop (w0.length - (gs.length - 1))

/-- The checks both CRC commands make before they run, in the order of 60_exceptions.md R184; `tooShort` is the
command's own length check. -/
def crcCheck (tooShort : Bool) (s : State) : Option ErrorKind :=
  if lenA s > s.params.lMax ∨ lenG s > s.params.gMax then some .badLength
  else if tooShort then some .inputTooShort
  else if bitAt s.g 0 = false then some .invalidGenerator
  else none

/-- CRC_REM's remainder: of the data with `k` zeros appended, in `A_LEN` steps (R120). -/
def crcRemainder (s : State) : Bits :=
  crcDivide (stringA s ++ zeros (lenG s - 1)) (generator s) (lenA s)

/-- CRC_VERIFY's remainder: of the received string itself, in `A_LEN - k` steps (R121). -/
def crcReceived (s : State) : Bits :=
  crcDivide (stringA s) (generator s) (lenA s - (lenG s - 1))

/-- CRC_REM is too short when `A_LEN < 1` or `G_LEN < 2` (R120). -/
def crcRemTooShort (s : State) : Bool := decide (lenA s < 1) || decide (lenG s < 2)

/-- CRC_VERIFY is too short when `G_LEN < 2` or `A_LEN < G_LEN` (R121). -/
def crcVerifyTooShort (s : State) : Bool := decide (lenG s < 2) || decide (lenA s < lenG s)

/-- CRC_REM, command word 0x00000001 (R120). -/
def execCrcRem (s : State) : Host.Outcome State Fault Refusal :=
  match crcCheck (crcRemTooShort s) s with
  | some k => raise k s
  | none => finish (putY (crcRemainder s) s)

/-- CRC_VERIFY, command word 0x00000002 (R121). -/
def execCrcVerify (s : State) : Host.Outcome State Fault Refusal :=
  match crcCheck (crcVerifyTooShort s) s with
  | some k => raise k s
  | none =>
    finish (putResult (if crcReceived s = zeros (lenG s - 1) then 1 else 0) (putY (crcReceived s) s))

end Sys2Proof.Machine
end

