-- ==== Sys2Proof/Machine/Hamming.lean ====
section
/-! DEFINITION. The Hamming single-error-correcting codec and its three commands (41_hamming.md). -/

namespace Sys2Proof.Machine

/-- `j` takes part in check `i`: `(j AND 2^i) != 0` (R140). -/
def covers (i j : Nat) : Bool := j &&& 2 ^ i != 0

/-- `count(P, i, n, with_self)`: the 1 bits among the positions `1 .. n` of check `i` (R144). -/
def checkCount (p : Bits) (i n : Nat) (withSelf : Bool) : Nat :=
  ((List.range n).map (· + 1)).countP fun j =>
    covers i j && (withSelf || decide (j ≠ 2 ^ i)) && bitAt p (j - 1)

/-- The loop of R150: `r` goes up until `2^r ≥ m + r + 1`; `fuel` bounds the recursion. -/
def rbitsFrom : Nat → Nat → Nat → Nat
  | 0, r, _ => r
  | fuel + 1, r, m => if 2 ^ r < m + r + 1 then rbitsFrom fuel (r + 1) m else r

/-- `rbits(m)` (R150, R151): `r = m + 1` always meets the inequality, so the loop ends by itself (log 10). -/
def rbits (m : Nat) : Nat := rbitsFrom (m + 1) 0 m

/-- Placement: positions `p, p+1, …` (`n` of them), parity positions 0, the others the data bits in order (R160). -/
def place : Nat → Nat → Bits → Bits
  | 0, _, _ => []
  | n + 1, p, d =>
    if isPow2 p then false :: place n (p + 1) d
    else d.headD false :: place n (p + 1) d.tail

/-- Parity computation of check `i`: the parity position gets the parity of its data positions (R160). -/
def setParity (n : Nat) (p : Bits) (i : Nat) : Bits :=
  p.set (2 ^ i - 1) (checkCount p i n false % 2 == 1)

/-- The packet of a data string: placement, then the parities of the checks `0 .. r-1` (R160). -/
def hamPacket (d : Bits) : Bits :=
  let r := rbits d.length
  let n := d.length + r
  (List.range r).foldl (setParity n) (place n 1 d)

/-- Syndrome bit `i` of a received packet of length `n` (R170). -/
def syndromeBit (p : Bits) (n i : Nat) : Nat := checkCount p i n true % 2

/-- `Σ s_i · 2^i` over the checks `0 .. c-1` (R170). -/
def syndromeOver (p : Bits) (n c : Nat) : Nat :=
  (List.range c).foldl (fun e i => e + syndromeBit p n i * 2 ^ i) 0

/-- The checks that are made: `r` of them, but none past the bit length of `n`, since a check `i` with `2^i > n`
covers no position (R171 allows it; log 10). -/
def checksMade (n r : Nat) : Nat := min r (n.log2 + 1)

/-- HAM_DEC's error position `e` (R170). -/
def hamSyndrome (s : State) : Nat := syndromeOver (stringA s) (lenA s) (checksMade (lenA s) (argNat s))

/-- HAM_RBITS, command word 0x00000003 (R150): no error of its own. -/
def execHamRbits (s : State) : Host.Outcome State Fault Refusal :=
  finish (putResult (rbits (argNat s)) s)

/-- HAM_ENC, command word 0x00000004 (R160). -/
def execHamEnc (s : State) : Host.Outcome State Fault Refusal :=
  if lenA s > s.params.lMax then raise .badLength s
  else if lenA s + rbits (lenA s) > s.params.lMax then raise .badLength s
  else finish (putResult (rbits (lenA s)) (putY (hamPacket (stringA s)) s))

/-- HAM_DEC, command word 0x00000005 (R170): RESULT is written before UNCORRECTABLE_SYNDROME is raised (60_exceptions.md
R183). -/
def execHamDec (s : State) : Host.Outcome State Fault Refusal :=
  if lenA s > s.params.lMax then raise .badLength s
  else if hamSyndrome s = 0 then finish (putResult (hamSyndrome s) s)
  else if hamSyndrome s ≤ lenA s then finish (flipA (hamSyndrome s - 1) (putResult (hamSyndrome s) s))
  else raise .uncorrectableSyndrome (putResult (hamSyndrome s) s)

end Sys2Proof.Machine
end

