-- ==== Sys2Proof/Machine/Dispatch.lean ====
section
/-! DEFINITION. One arm per command of the opcode table. -/

namespace Sys2Proof.Machine

/-- The completion of a decoded command (60_exceptions.md R182): its run and the epilogue, one atomic event
(log 16). -/
def exec (i : Instr) (s : State) : Host.Outcome State Fault Refusal :=
  match i with
  | .crcRem => Sys2Proof.Machine.execCrcRem s
  | .crcVerify => Sys2Proof.Machine.execCrcVerify s
  | .hamRbits => Sys2Proof.Machine.execHamRbits s
  | .hamEnc => Sys2Proof.Machine.execHamEnc s
  | .hamDec => Sys2Proof.Machine.execHamDec s

end Sys2Proof.Machine
end

