-- ==== Sys2Proof/Machine/Step.lean ====
section
/-! DEFINITION. One step: one event of the total order of 20_memory.md R70. -/

namespace Sys2Proof.Machine

/-- The engine's one step: decode the latched word and complete the command (60_exceptions.md R182). -/
def engineStep (s : State) : Host.Outcome State Fault Refusal :=
  match decode s.cmd with
  | .command i => exec i s
  | .illegal _ => completeIllegal s

/-- One event: a completion, a host event, or none where the engine is idle and no event waits (log 9). -/
def step (s : State) : Host.Outcome State Fault Refusal :=
  match turn s with
  | .engine => engineStep s
  | .host e rest => portEvent e (takeTurn rest s)
  | .idle => .next s

/-- `s` with the command word accepted (10_state.md R41) and the engine to move: the block fetches no program, its
next command is the one latched in CMD (10_state.md R22, R23; log 7, log 14). -/
def State.withFetchWord (s : State) (nbits w : Nat) : State :=
  { s with
    cmd := BitVec.ofNat 32 (w % 2 ^ nbits), err := .noError, done := false, busy := true
    rst := false, hostTurns := 0 }

end Sys2Proof.Machine
end

