-- ==== Sys2Proof/Machine/HostProgram.lean ====
section
/-! DEFINITION. The host notation (30_encoding.md R96 to R102): the events a statement encodes to, the statements a
pseudo-statement expands to, and a host that runs a program against the block. The host's program counter stands
outside the block (10_state.md R22). -/

namespace Sys2Proof.Machine

/-! ## Encoding of base statements -/

/-- The bus address of a register (20_memory.md R60). -/
def regAddr (p : Params) (r : Reg) : Nat := p.base + regOffset r

/-- The bus address of a window word (20_memory.md R63). -/
def windowAddr (p : Params) (x : Buf) (w : Nat) : Nat := p.base + windowOffset x w

/-- How many window words hold `L` bits: `ceil(L/32)` (R99, R102). -/
def wordsFor (len : Nat) : Nat := (len + 31) / 32

/-- The value of a temporary; one that was never filled is 0 (log 11). -/
def tempOf (temps : List (Nat × Word)) (t : Nat) : Word :=
  match temps with
  | [] => 0
  | (u, v) :: rest => if u = t then v else tempOf rest t

/-- The value of a host expression, over the naturals (log 11). -/
def evalExp (temps : List (Nat × Word)) : HostExp → Nat
  | .lit n => n
  | .temp t => (tempOf temps t).toNat
  | .field t hi lo => ((tempOf temps t).extractLsb' lo (hi + 1 - lo)).toNat
  | .add x y => evalExp temps x + evalExp temps y
  | .xor x y => evalExp temps x ^^^ evalExp temps y
  | .shl x k => evalExp temps x <<< k

/-- The 32-bit value that a `wr` or `wrw` writes: its expression, narrowed to 32 bits (R97; log 11). -/
def evalWord (temps : List (Nat × Word)) (v : HostExp) : Word := BitVec.ofNat 32 (evalExp temps v)

/-- The events of a statement where the temporaries hold `temps`: one access, none for a label and a branch (30_encoding.md
R97), and one for each word of the string for the reads of `rdbits` (R102). -/
def stmtEvents (p : Params) (temps : List (Nat × Word)) : Stmt → List PortEvent
  | .wr r v => [.write (regAddr p r) 4 (evalWord temps v)]
  | .rd r _ => [.read (regAddr p r) 4]
  | .wrw x w v => [.write (windowAddr p x w) 4 (evalWord temps v)]
  | .rdw x w _ => [.read (windowAddr p x w) 4]
  | .rdws x t =>
    (List.range (wordsFor (tempOf temps t).toNat)).map fun w => .read (windowAddr p x.buf w) 4
  | .label _ => []
  | .ifGoto _ _ => []

/-- The encoding of a program whose statements run in their written order: its events in order (30_encoding.md R96).
`temps` gives the values of the temporaries its statements use. -/
def programEvents (p : Params) (temps : List (Nat × Word)) (prog : List Stmt) : List PortEvent :=
  prog.flatMap (stmtEvents p temps)

/-! ## Pseudo-statements -/

/-- `cmd <mnemonic>` is `wr CMD, <command word>` (R98). -/
def cmdStmts (i : Instr) : List Stmt := [.wr .cmd (.word (encode i))]

/-- The length register of a buffer. -/
def lengthReg : Buf → Reg
  | .a => .aLen
  | .g => .gLen
  | .y => .yLen

/-- `ldbits X, "b0 b1 …"`: the length, then the packed words; bits of the last word above the length are 0 (R99). -/
def ldbitsStmts (x : Buf) (bits : Bits) : List Stmt :=
  .wr (lengthReg x) (.lit bits.length) ::
    (List.range (wordsFor bits.length)).map fun w => .wrw x w (.word (windowWord bits w))

/-- `wait -> t`: `l: rd STATUS -> t; if t[0] = 1 goto l` (R100). -/
def waitStmts (l t : Nat) : List Stmt :=
  [.label l, .rd .status t, .ifGoto (.eq (.field t 0 0) (.lit 1)) l]

/-- The events of a `wait` that polls `polls` times (R100; the number is not fixed, 70_reset_and_hazards.md R223). -/
def waitEvents (p : Params) (polls : Nat) : List PortEvent :=
  List.replicate polls (.read (regAddr p .status) 4)

/-- `ack` (R101). -/
def ackStmts : List Stmt := [.wr .status (.lit 0x00000002)]

/-- `ackovr` (R101). -/
def ackovrStmts : List Stmt := [.wr .status (.lit 0x00000004)]

/-- `rdbits X -> s` for X in {A, Y}: the length register into temporary `t`, then as many words as that length takes into
the temporaries after it (R102; log 13). -/
def rdbitsStmts (x : ReadBuf) (t : Nat) : List Stmt := [.rd (lengthReg x.buf) t, .rdws x t]

/-- The string `rdbits` makes of the words read: `s[j] = word[floor(j/32)][j mod 32]` (R102). -/
def rdbitsString (len : Nat) (words : List Word) : Bits :=
  (List.range len).map fun j => (words.getD (j / 32) 0).getLsbD (j % 32)

/-- The string `s` that `rdbits X -> s` leaves with its host: its length stands in temporary `t` and its words in the
temporaries after it (R102; log 13). -/
def rdbitsOf (temps : List (Nat × Word)) (t : Nat) : Bits :=
  rdbitsString (tempOf temps t).toNat
    ((List.range (wordsFor (tempOf temps t).toNat)).map fun w => tempOf temps (t + 1 + w))

/-! ## A host that runs a program -/

/-- A host with its program, its own program counter and temporaries (newest first), and the block. -/
structure HostRun where
  prog : List Stmt
  hpc : Nat
  temps : List (Nat × Word)
  /-- the temporaries that the reads on their way will fill, in order -/
  awaiting : List Nat
  block : State
  deriving DecidableEq, Repr

/-- Whether a branch condition holds (log 11). -/
def condHolds (temps : List (Nat × Word)) : HostCond → Bool
  | .eq x y => evalExp temps x == evalExp temps y
  | .gt x y => decide (evalExp temps y < evalExp temps x)

/-- Where a label stands in a program: its first place where several statements bear it, past the program's end where none
does. The spec says neither (R97, R100); both are the model's choice (log 11). -/
def labelIndex (prog : List Stmt) (l : Nat) : Nat := prog.findIdx (· == .label l)

/-- The statement that comes after `st` (R97). -/
def nextIndex (h : HostRun) : Stmt → Nat
  | .ifGoto c l => if condHolds h.temps c then labelIndex h.prog l else h.hpc + 1
  | .wr _ _ => h.hpc + 1
  | .rd _ _ => h.hpc + 1
  | .wrw _ _ _ => h.hpc + 1
  | .rdw _ _ _ => h.hpc + 1
  | .rdws _ _ => h.hpc + 1
  | .label _ => h.hpc + 1

/-- The temporaries that a statement's reads fill, in their order (R97, R102). -/
def stmtFills (temps : List (Nat × Word)) : Stmt → List Nat
  | .rd _ t => [t]
  | .rdw _ _ t => [t]
  | .rdws _ t => (List.range (wordsFor (tempOf temps t).toNat)).map fun w => t + 1 + w
  | .wr _ _ => []
  | .wrw _ _ _ => []
  | .label _ => []
  | .ifGoto _ _ => []

/-- The host goes on to its next statement and hands its events to the port (30_encoding.md R97). A statement with no
event, a label or a branch, takes one of the host turns that come before a pending completion, as an event does when it
takes effect: so only finitely many come before it (70_reset_and_hazards.md R223; log 6). -/
def hostIssue (h : HostRun) : HostRun :=
  match h.prog[h.hpc]? with
  | none => h
  | some st =>
    let events := stmtEvents h.block.params h.temps st
    { h with
      hpc := nextIndex h st, awaiting := h.awaiting ++ stmtFills h.temps st
      block := { h.block with
        port := h.block.port ++ events
        hostTurns := if events = [] then h.block.hostTurns - 1 else h.block.hostTurns } }

/-- The host after the block has made one step to `t`: a reply that has arrived fills the oldest waiting temporary. -/
def hostReceive (h : HostRun) (t : State) : HostRun :=
  match h.awaiting, decide (h.block.replies.length < t.replies.length), t.replies with
  | tmp :: rest, true, v :: _ => { h with temps := (tmp, v) :: h.temps, awaiting := rest, block := t }
  | _, _, _ => { h with block := t }

/-- The completion is due: it is enabled and the host turns that come before it are used up (60_exceptions.md R182; log
6). -/
def completionDue (s : State) : Bool := s.busy && !s.rst && s.hostTurns == 0

/-- The host goes on to its next statement: its program goes on, the events of its last one have taken effect (00_scope.md
R18: its accesses come one at a time), and no completion is due. -/
def hostGoesOn (h : HostRun) : Bool :=
  h.block.port.isEmpty && decide (h.hpc < h.prog.length) && !completionDue h.block

/-- One step of host and block together: the host goes on to its next statement, or the block takes one step. Weakly fair to
the engine (70_reset_and_hazards.md R223): every step of a host takes a host turn or puts an event at the port, which
takes one next. -/
def hostStep (h : HostRun) : Host.Outcome HostRun Fault Refusal :=
  if hostGoesOn h then .next (hostIssue h)
  else
    match step h.block with
    | .next t => .next (hostReceive h t)
    | .fault r => .fault r
    | .refused r => .refused r

end Sys2Proof.Machine
end

