-- ==== Sys2Proof/Safety.lean ====
section
/-! DEFINITION. What counts as a safe state and a safe run, and the notions the rules state their properties with. -/

namespace Sys2Proof.Machine

/-- The storage of the block, its three bit buffers, has its canonical form: exactly `CAP_X` bits each (20_memory.md
R63). The block has no other memory (10_state.md R20, R39). -/
abbrev Memory.wf (s : State) : Prop :=
  s.a.length = s.params.lMax ∧ s.g.length = s.params.gMax ∧ s.y.length = s.params.lMax

/-- Every control, status, operand and result register is as after reset (10_state.md R38). -/
abbrev RegistersReset (s : State) : Prop :=
  s.busy = false ∧ s.done = false ∧ s.ovr = false ∧ s.err = .noError ∧ s.ie = false ∧ s.cmd = 0 ∧ s.result = 0 ∧
    s.arg = 0 ∧ s.aLen = 0 ∧ s.gLen = 0 ∧ s.yLen = 0

/-- The invariant of the block. -/
structure Inv (s : State) : Prop where
  /-- the parameters are legal (00_scope.md R7) -/
  legal : s.params.Legal
  /-- the buffers have their capacities (10_state.md R30) -/
  memory : Memory.wf s
  /-- Y_LEN is at most L_MAX (10_state.md R34) -/
  yLen_le : s.yLen.toNat ≤ s.params.lMax
  /-- RESULT is at most 65535 (41_hamming.md R150, R171) -/
  result_le : s.result.toNat ≤ 65535
  /-- while a command runs, DONE and ERR are clear (10_state.md R41) -/
  busy_quiet : s.busy = true → s.done = false ∧ s.err = .noError
  /-- while `rst` is asserted the block holds the reset state (70_reset_and_hazards.md R210) -/
  rst_holds : s.rst = true → RegistersReset s

/-- Every waiting event is an admitted one, with the level of `rst` it will meet (20_memory.md R62, R65;
70_reset_and_hazards.md R210). -/
def portAdmitted (p : Params) : Bool → List PortEvent → Bool
  | _, [] => true
  | _, .rst level :: rest => portAdmitted p level rest
  | rst, e :: rest => e.wf p rst && portAdmitted p rst rest

/-- The completion is the next event (60_exceptions.md R182; 20_memory.md R70). -/
abbrev EngineMoves (s : State) : Prop :=
  s.busy = true ∧ s.rst = false ∧ (s.hostTurns = 0 ∨ s.port = [])

/-- What a reset leaves (10_state.md R38). -/
abbrev IsResetState (s : State) : Prop := RegistersReset s ∧ irq s = false

/-- `codeword(D, Gs)`: the data followed by its CRC remainder (40_crc.md R122). -/
def codeword (d gs : Bits) : Bits := d ++ crcDivide (d ++ zeros (gs.length - 1)) gs d.length

/-- The data of a packet: its bits at the data positions, in order (41_hamming.md R141, R162). -/
def dataOf (p : Bits) : Bits :=
  ((List.range p.length).filter fun j => !isPow2 (j + 1)).map (bitAt p)

/-- `r` is the least natural with `2^r ≥ m + r + 1` (41_hamming.md R150, R151). -/
abbrev LeastRedundancy (m r : Nat) : Prop :=
  m + r + 1 ≤ 2 ^ r ∧ ∀ q < r, 2 ^ q < m + q + 1

/-- Every access that waits at the port, and every access that a statement of the program can make with any values in the
temporaries, is an admitted one (20_memory.md R62, R65). -/
abbrev HostAdmitted (h : HostRun) : Prop :=
  portAdmitted h.block.params h.block.rst h.block.port = true ∧
    ∀ st ∈ h.prog, ∀ temps, ∀ e ∈ stmtEvents h.block.params temps st, e.wf h.block.params false = true

/-- `n` steps of a host and its block, stopping at the first refusal. -/
def hostRunFor : Nat → HostRun → Host.Outcome HostRun Fault Refusal
  | 0, h => .next h
  | n + 1, h =>
    match hostStep h with
    | .next h' => hostRunFor n h'
    | .fault r => .fault r
    | .refused r => .refused r

end Sys2Proof.Machine
end

