-- ==== Sys2Proof/Certificates/Slice0/Obligations.lean ====
section
/-! DEFINITION. The statements for the provers: what the rules of spec/ say of the model. -/

open Sys2Proof Sys2Proof.Machine

/-- The polynomial over GF(2) that a string stands for: index 0 is the coefficient of the highest degree (00_scope.md
R14). -/
noncomputable def Sys2Proof.bitsPoly : Bits → Polynomial (ZMod 2)
  | [] => 0
  | b :: s => (if b then Polynomial.X ^ s.length else 0) + Sys2Proof.bitsPoly s

/-! ## Encoding -/

/-- 30_encoding.md R93, and words of each reserved kind: the words are written out from the table. -/
def Obligations.CommandWordsDecode : Prop :=
  decode 0x00000001 = .command .crcRem ∧ decode 0x00000002 = .command .crcVerify ∧
    decode 0x00000003 = .command .hamRbits ∧ decode 0x00000004 = .command .hamEnc ∧
    decode 0x00000005 = .command .hamDec ∧ decode 0x00000000 = .illegal .reservedOp ∧
    decode 0x00000006 = .illegal .reservedOp ∧ decode 0x0000000F = .illegal .reservedOp ∧
    decode 0x00000011 = .illegal .reservedBits ∧ decode 0x80000005 = .illegal .reservedBits

/-- Decoding a command's word gives the command back (30_encoding.md R93, R94). -/
def Obligations.DecodeInvertsEncode : Prop :=
  ∀ i : Instr, i.wf = true → decode (encode i) = .command i

/-- Each command has exactly one word: no reserved bit of it is ignored (30_encoding.md R94). -/
def Obligations.DecodedWordIsTheEncodedWord : Prop :=
  ∀ (c : Word) (i : Instr), decode c = .command i → c = encode i

/-- 30_encoding.md R95: the illegal words are every word with RSV ≠ 0, and OP = 0x0 or OP in 0x6 to 0xF. -/
def Obligations.IllegalWordsAreTheReservedOnes : Prop :=
  ∀ c : Word, (∃ why, decode c = .illegal why) ↔
    (c.toNat / 16 ≠ 0 ∨ c.toNat % 16 = 0 ∨ 6 ≤ c.toNat % 16)

/-- 20_memory.md R64 (little-endian lanes) and 30_encoding.md R91 (a command is one word). -/
def Obligations.LanesCarryTheWord : Prop :=
  ∀ v : Word, decodeLanes (lanes v) = decode v ∧
    (∀ i < 4, ∀ b < 8, (lane v i).getLsbD b = v.getLsbD (8 * i + b)) ∧
    ∀ bs : List Byte, bs.length ≠ 4 → decodeLanes bs = .illegal .notOneWord

/-! ## Who moves, and what a step does -/

/-- 60_exceptions.md R182: when the completion is the next event and the latched word decodes, the step is that command's completion. -/
def Obligations.StepRunsTheLatchedCommand : Prop :=
  ∀ (s : State) (i : Instr), EngineMoves s → decode s.cmd = .command i → step s = exec i s

/-- 30_encoding.md R95: an illegal word completes with ILLEGAL_COMMAND and changes no register but STATUS. -/
def Obligations.IllegalCommandChangesOnlyStatus : Prop :=
  ∀ (s : State) (why : Illegal), EngineMoves s → decode s.cmd = .illegal why →
    step s = .next { s with err := .illegalCommand, done := true, busy := false }

/-- 20_memory.md R70: where the completion is not the next event, the oldest waiting event is; with none waiting nothing
happens (that last clause is the model's choice, log 9; the count of host turns is log 6). -/
def Obligations.OldestEventTakesEffectNext : Prop :=
  ∀ s : State, ¬ EngineMoves s →
    (∀ e rest, s.port = e :: rest →
      step s = portEvent e { s with port := rest, hostTurns := s.hostTurns - 1 }) ∧
    (s.port = [] → step s = .next s)

/-! ## Host accesses -/

/-- 10_state.md R41, R42: acceptance, whatever the word, and the discarded write. Nothing is said of the value that
the model's own fields `hostTurns` and `draws` take (log 6). -/
def Obligations.CommandWriteAcceptedOrDiscarded : Prop :=
  ∀ (s : State) (v : Word), s.rst = false →
    (s.busy = false →
      ∃ turns drawn : Nat, portEvent (.write (regAddr s.params .cmd) 4 v) s =
        .next { s with
          cmd := v, err := .noError, done := false, busy := true, hostTurns := turns, draws := drawn }) ∧
    (s.busy = true →
      portEvent (.write (regAddr s.params .cmd) 4 v) s = .next { s with ovr := true })

/-- 10_state.md R43 for the registers and the windows, and R31 to R33 (any value may be written) while idle. -/
def Obligations.OperandWritesStoreOrAreDiscarded : Prop :=
  ∀ (s : State) (v : Word), s.rst = false →
    (s.busy = false →
      portEvent (.write (regAddr s.params .arg) 4 v) s = .next { s with arg := v } ∧
      portEvent (.write (regAddr s.params .aLen) 4 v) s = .next { s with aLen := v } ∧
      portEvent (.write (regAddr s.params .gLen) 4 v) s = .next { s with gLen := v }) ∧
    (s.busy = true →
      portEvent (.write (regAddr s.params .arg) 4 v) s = .next { s with ovr := true } ∧
      portEvent (.write (regAddr s.params .aLen) 4 v) s = .next { s with ovr := true } ∧
      portEvent (.write (regAddr s.params .gLen) 4 v) s = .next { s with ovr := true } ∧
      ∀ w < 1024,
        portEvent (.write (windowAddr s.params .a w) 4 v) s = .next { s with ovr := true } ∧
        portEvent (.write (windowAddr s.params .g w) 4 v) s = .next { s with ovr := true })

/-- 20_memory.md R63: the packing of the windows, for an idle engine. Bit `b` of word `w` is buffer bit `32w + b`;
bits beyond the capacity read 0 and are not written. -/
def Obligations.WindowPacking : Prop :=
  ∀ (s : State) (x : Buf) (w : Nat), Inv s → s.rst = false → s.busy = false → w < 1024 →
    (∃ v, portEvent (.read (windowAddr s.params x w) 4) s = .next { s with replies := v :: s.replies } ∧
      ∀ b < 32, v.getLsbD b =
        if 32 * w + b < (bufferOf s x).length then bitAt (bufferOf s x) (32 * w + b) else false) ∧
    ∀ v : Word, x ≠ .y →
      ∃ t, portEvent (.write (windowAddr s.params x w) 4 v) s = .next t ∧
        (bufferOf t x).length = (bufferOf s x).length ∧
        (∀ j < (bufferOf s x).length,
          bitAt (bufferOf t x) j = if j / 32 = w then v.getLsbD (j % 32) else bitAt (bufferOf s x) j) ∧
        (∀ z, z ≠ x → bufferOf t z = bufferOf s z) ∧ t = { s with a := t.a, g := t.g }

/-- 10_state.md R24 to R34, R47, R49: what a read of each register and window word replies, at the offset R24 gives it;
which reads are unspecified while BUSY = 1 (a draw, log 5); that a read changes no state of the block; and the address
of each register by its name. -/
def Obligations.ReadsReturnStoredOrUnspecified : Prop :=
  (∀ s : State, s.rst = false →
    (∀ off v,
      (off, v) ∈ [(0x0000, cfgWord s.params), (0x0004, ctrlWord s), (0x0008, s.cmd), (0x000C, statusWord s),
        (0x0014, s.arg), (0x0018, s.aLen), (0x001C, s.gLen)] →
      portEvent (.read (s.params.base + off) 4) s = .next { s with replies := v :: s.replies }) ∧
    (∀ off v, (off, v) ∈ [(0x0010, s.result), (0x0020, s.yLen)] →
      portEvent (.read (s.params.base + off) 4) s =
        if s.busy = true then
          .next { s with replies := Config.busyRead s.draws :: s.replies, draws := s.draws + 1 }
        else .next { s with replies := v :: s.replies }) ∧
    (∀ off buf, (off, buf) ∈ [(0x1000, s.a), (0x3000, s.y)] → ∀ w < 1024,
      portEvent (.read (s.params.base + off + 4 * w) 4) s =
        if s.busy = true then
          .next { s with replies := Config.busyRead s.draws :: s.replies, draws := s.draws + 1 }
        else .next { s with replies := windowWord buf w :: s.replies }) ∧
    ∀ w < 1024, portEvent (.read (s.params.base + 0x2000 + 4 * w) 4) s =
      .next { s with replies := windowWord s.g w :: s.replies }) ∧
  ∀ p : Params,
    regAddr p .cfg = p.base + 0x0000 ∧ regAddr p .ctrl = p.base + 0x0004 ∧ regAddr p .cmd = p.base + 0x0008 ∧
      regAddr p .status = p.base + 0x000C ∧ regAddr p .result = p.base + 0x0010 ∧
      regAddr p .arg = p.base + 0x0014 ∧ regAddr p .aLen = p.base + 0x0018 ∧ regAddr p .gLen = p.base + 0x001C ∧
      regAddr p .yLen = p.base + 0x0020 ∧
      ∀ w, windowAddr p .a w = p.base + 0x1000 + 4 * w ∧ windowAddr p .g w = p.base + 0x2000 + 4 * w ∧
        windowAddr p .y w = p.base + 0x3000 + 4 * w

/-- 10_state.md R44, R45: writes of STATUS and CTRL, busy or not. -/
def Obligations.StatusAndControlWrites : Prop :=
  ∀ (s : State) (v : Word), s.rst = false →
    portEvent (.write (regAddr s.params .status) 4 v) s =
        .next { s with
          done := s.done && !v.getLsbD 1
          ovr := s.ovr && !v.getLsbD 2 } ∧
      portEvent (.write (regAddr s.params .ctrl) 4 v) s = .next { s with ie := v.getLsbD 0 }

/-- 10_state.md R35, R46: writes of read-only registers and reserved offsets are ignored, busy or not, and reserved
offsets read as zero. -/
def Obligations.ReadOnlyAndReservedIgnoreWrites : Prop :=
  ∀ (s : State) (v : Word), s.rst = false →
    portEvent (.write (regAddr s.params .cfg) 4 v) s = .next s ∧
      portEvent (.write (regAddr s.params .result) 4 v) s = .next s ∧
      portEvent (.write (regAddr s.params .yLen) 4 v) s = .next s ∧
      (∀ w < 1024, portEvent (.write (windowAddr s.params .y w) 4 v) s = .next s) ∧
      ∀ off, 0x0024 ≤ off → off ≤ 0x0FFC → off % 4 = 0 →
        portEvent (.write (s.params.base + off) 4 v) s = .next s ∧
          portEvent (.read (s.params.base + off) 4) s = .next { s with replies := 0 :: s.replies }

/-- 10_state.md R26, R28, R35: the bits of STATUS and CTRL; the codes are those of 60_exceptions.md R180. -/
def Obligations.StatusAndControlLayout : Prop :=
  ∀ s : State,
    ((statusWord s).getLsbD 0 = s.busy ∧ (statusWord s).getLsbD 1 = s.done ∧ (statusWord s).getLsbD 2 = s.ovr ∧
      (statusWord s).toNat / 256 =
        (match s.err with
          | .noError => 0
          | .invalidGenerator => 1
          | .inputTooShort => 2
          | .uncorrectableSyndrome => 3
          | .badLength => 4
          | .illegalCommand => 5) ∧
      ∀ b, 3 ≤ b → b < 8 → (statusWord s).getLsbD b = false) ∧
    (ctrlWord s).toNat = if s.ie then 1 else 0

/-- 10_state.md R25: the fields of CFG, and its value in the reference configuration. That a capacity of 32768 reads as 0
follows R25's sentence and D35 against R25's formula (log 19). -/
def Obligations.CfgReportsTheCapacities : Prop :=
  (∀ p : Params,
    (cfgWord p).toNat % 2 ^ 16 = (if p.lMax = 32768 then 0 else p.lMax % 2 ^ 16) ∧
    (cfgWord p).toNat / 2 ^ 16 = (if p.gMax = 32768 then 0 else p.gMax % 2 ^ 16)) ∧
    cfgWord Params.reference = 0x00210040

/-- 10_state.md R37: `irq` is the AND of CTRL bit 0 and STATUS bit 1; it falls on an accepted command, on a write of 1
to DONE, on clearing IE and on reset, and after every completion, that of an illegal word included, it is CTRL.IE
(60_exceptions.md R182, R188). -/
def Obligations.IrqFollowsEnableAndDone : Prop :=
  (∀ s : State, irq s = ((ctrlWord s).getLsbD 0 && (statusWord s).getLsbD 1)) ∧
  (∀ (s t : State) (v : Word), s.rst = false → s.busy = false →
      portEvent (.write (regAddr s.params .cmd) 4 v) s = .next t → irq t = false) ∧
    (∀ (s t : State) (v : Word), v.getLsbD 1 = true →
      portEvent (.write (regAddr s.params .status) 4 v) s = .next t → irq t = false) ∧
    (∀ (s t : State) (v : Word), v.getLsbD 0 = false →
      portEvent (.write (regAddr s.params .ctrl) 4 v) s = .next t → irq t = false) ∧
    (∀ s t : State, s.rst = false → portEvent (.rst true) s = .next t → irq t = false) ∧
    (∀ (i : Instr) (s t : State), exec i s = .next t → irq t = s.ie) ∧
    ∀ s t : State, EngineMoves s → step s = .next t → irq t = s.ie

/-- 10_state.md R38; 70_reset_and_hazards.md R211: asserting `rst` gives the reset state, whatever the engine was doing
(the events still to come and the replies given are the host's, log 7; each buffer bit is a draw, log 4). -/
def Obligations.AssertedResetGivesResetState : Prop :=
  ∀ s : State, s.rst = false →
    ∃ t, portEvent (.rst true) s = .next t ∧ t.rst = true ∧ IsResetState t ∧ t.params = s.params ∧ Memory.wf t ∧
      (∀ x j, j < (bufferOf t x).length → bitAt (bufferOf t x) j = Config.resetBit s.draws x j) ∧
      t.port = s.port ∧ t.replies = s.replies ∧
      portEvent (.rst false) t = .next { t with rst := false }

/-- 10_state.md R38 and 70_reset_and_hazards.md R212, for the machine right after reset; that its parameters are the
reference configuration is the model's choice (log 2), and each buffer bit is a draw (log 4). -/
def Obligations.MachineStartsInResetState : Prop :=
  IsResetState State.reset ∧ State.reset.rst = false ∧ Memory.wf State.reset ∧ State.reset.params.lMax = 64 ∧
    State.reset.params.gMax = 33 ∧ cfgWord State.reset.params = 0x00210040 ∧
    ∃ n, ∀ x j, j < (bufferOf State.reset x).length → bitAt (bufferOf State.reset x) j = Config.resetBit n x j

/-- 20_memory.md R62, R65; 70_reset_and_hazards.md R210: exactly the admitted accesses take effect, the others are
refused under the name of what they break. Which name an access gets that breaks several rules is the model's choice
(log 15). -/
def Obligations.OnlyAdmittedAccessesTakeEffect : Prop :=
  ∀ (s : State) (addr size : Nat) (e : PortEvent), (e = .read addr size ∨ ∃ v, e = .write addr size v) →
    (s.rst = true → portEvent e s = .refused .accessDuringReset) ∧
    (s.rst = false → ¬ (s.params.base ≤ addr ∧ addr ≤ s.params.base + 0x3FFF) →
      portEvent e s = .refused .outsideAperture) ∧
    (s.rst = false → s.params.base ≤ addr → addr ≤ s.params.base + 0x3FFF →
      ¬ (size = 4 ∧ (addr - s.params.base) % 4 = 0) → portEvent e s = .refused .notAlignedWord) ∧
    (s.rst = false → s.params.base ≤ addr → addr ≤ s.params.base + 0x3FFF → size = 4 →
      (addr - s.params.base) % 4 = 0 → ∃ t, portEvent e s = .next t)

/-! ## The CRC commands -/

/-- 40_crc.md R120, success: Y gets the remainder of the data with `k` zeros appended, zero beyond it; Y_LEN is `k`;
nothing else but STATUS changes. -/
def Obligations.CrcRemCompletes : Prop :=
  ∀ s : State, 1 ≤ lenA s → lenA s ≤ s.params.lMax → 2 ≤ lenG s → lenG s ≤ s.params.gMax → bitAt s.g 0 = true →
    ∃ rm : Bits,
      rm = crcDivide (prefixBits (lenA s) s.a ++ zeros (lenG s - 1)) (prefixBits (lenG s) s.g) (lenA s) ∧
      rm.length = lenG s - 1 ∧
      exec .crcRem s =
        .next { s with
          y := rm ++ zeros (s.params.lMax - (lenG s - 1)), yLen := BitVec.ofNat 32 (lenG s - 1)
          err := .noError, done := true, busy := false }

/-- 40_crc.md R120 and 60_exceptions.md R184: the errors of CRC_REM in their order; only STATUS changes. -/
def Obligations.CrcRemErrors : Prop :=
  ∀ s : State,
    (s.params.lMax < lenA s ∨ s.params.gMax < lenG s →
      exec .crcRem s = .next { s with err := .badLength, done := true, busy := false }) ∧
    (lenA s ≤ s.params.lMax → lenG s ≤ s.params.gMax → (lenA s < 1 ∨ lenG s < 2) →
      exec .crcRem s = .next { s with err := .inputTooShort, done := true, busy := false }) ∧
    (lenA s ≤ s.params.lMax → lenG s ≤ s.params.gMax → 1 ≤ lenA s → 2 ≤ lenG s → bitAt s.g 0 = false →
      exec .crcRem s = .next { s with err := .invalidGenerator, done := true, busy := false })

/-- 40_crc.md R121, success: no zeros appended, `n - k` steps; RESULT is 1 iff the remainder is all zero. -/
def Obligations.CrcVerifyCompletes : Prop :=
  ∀ s : State, lenA s ≤ s.params.lMax → 2 ≤ lenG s → lenG s ≤ s.params.gMax → lenG s ≤ lenA s →
    bitAt s.g 0 = true →
    ∃ rm : Bits,
      rm = crcDivide (prefixBits (lenA s) s.a) (prefixBits (lenG s) s.g) (lenA s - (lenG s - 1)) ∧
      rm.length = lenG s - 1 ∧
      exec .crcVerify s =
        .next { s with
          y := rm ++ zeros (s.params.lMax - (lenG s - 1)), yLen := BitVec.ofNat 32 (lenG s - 1)
          result := if rm = zeros (lenG s - 1) then 1 else 0
          err := .noError, done := true, busy := false }

/-- 40_crc.md R121 and 60_exceptions.md R184: the errors of CRC_VERIFY in their order; only STATUS changes. -/
def Obligations.CrcVerifyErrors : Prop :=
  ∀ s : State,
    (s.params.lMax < lenA s ∨ s.params.gMax < lenG s →
      exec .crcVerify s = .next { s with err := .badLength, done := true, busy := false }) ∧
    (lenA s ≤ s.params.lMax → lenG s ≤ s.params.gMax → (lenG s < 2 ∨ lenA s < lenG s) →
      exec .crcVerify s = .next { s with err := .inputTooShort, done := true, busy := false }) ∧
    (lenA s ≤ s.params.lMax → lenG s ≤ s.params.gMax → 2 ≤ lenG s → lenG s ≤ lenA s → bitAt s.g 0 = false →
      exec .crcVerify s = .next { s with err := .invalidGenerator, done := true, busy := false })

/-! ## The Hamming commands -/

/-- 41_hamming.md R150: RESULT is the least `r` with `2^r ≥ ARG + r + 1`, at most 33; no error; nothing else but STATUS
changes. -/
def Obligations.HamRbitsCompletes : Prop :=
  ∀ s : State, ∃ r : Nat, LeastRedundancy s.arg.toNat r ∧ r ≤ 33 ∧
    exec .hamRbits s =
      .next { s with result := BitVec.ofNat 32 r, err := .noError, done := true, busy := false }

/-- 41_hamming.md R160, success: Y gets the packet, zero beyond it; Y_LEN is `n`, RESULT is `r`; nothing else but
STATUS changes. What the packet holds is said by `PacketParityIsEven` and `PacketCarriesItsData`. -/
def Obligations.HamEncCompletes : Prop :=
  ∀ (s : State) (r : Nat), LeastRedundancy (lenA s) r → lenA s + r ≤ s.params.lMax →
    (hamPacket (prefixBits (lenA s) s.a)).length = lenA s + r ∧
    exec .hamEnc s =
      .next { s with
        y := hamPacket (prefixBits (lenA s) s.a) ++ zeros (s.params.lMax - (lenA s + r))
        yLen := BitVec.ofNat 32 (lenA s + r), result := BitVec.ofNat 32 r
        err := .noError, done := true, busy := false }

/-- 41_hamming.md R170: the three outcomes of HAM_DEC by the syndrome over all `ARG` checks. -/
def Obligations.HamDecCompletes : Prop :=
  ∀ (s : State) (e : Nat), lenA s ≤ s.params.lMax →
    e = syndromeOver (prefixBits (lenA s) s.a) (lenA s) s.arg.toNat →
    (e = 0 →
      exec .hamDec s = .next { s with result := 0, err := .noError, done := true, busy := false }) ∧
    (e ≠ 0 → e ≤ lenA s →
      exec .hamDec s =
        .next { s with
          a := s.a.set (e - 1) (!bitAt s.a (e - 1)), result := BitVec.ofNat 32 e
          err := .noError, done := true, busy := false }) ∧
    (lenA s < e →
      exec .hamDec s =
        .next { s with
          result := BitVec.ofNat 32 e, err := .uncorrectableSyndrome, done := true, busy := false })

/-- 41_hamming.md R160, R170: the capacity errors of HAM_ENC and HAM_DEC; only STATUS changes. -/
def Obligations.HammingCapacityErrors : Prop :=
  ∀ s : State,
    (s.params.lMax < lenA s →
      exec .hamDec s = .next { s with err := .badLength, done := true, busy := false }) ∧
    ∀ r, LeastRedundancy (lenA s) r → s.params.lMax < lenA s + r →
      exec .hamEnc s = .next { s with err := .badLength, done := true, busy := false }

/-! ## Frames -/

/-- 20_memory.md R69 and 10_state.md R48: the commands that write Y (CRC_REM, CRC_VERIFY, HAM_ENC) change Y, Y_LEN,
RESULT and STATUS only; A, G and every other register read as before; CRC_REM leaves RESULT; a completion with an error
leaves Y, Y_LEN and RESULT; Y is zero from Y_LEN on. -/
def Obligations.StringCommandsFrame : Prop :=
  ∀ (i : Instr) (s t : State), i = .crcRem ∨ i = .crcVerify ∨ i = .hamEnc → s.params.Legal →
    exec i s = .next t →
    t = { s with
      y := t.y, yLen := t.yLen, result := t.result, err := t.err, done := true, busy := false } ∧
    (i = .crcRem → t.result = s.result) ∧
    (t.err ≠ .noError → t.y = s.y ∧ t.yLen = s.yLen ∧ t.result = s.result) ∧
    (t.err = .noError → t.y.length = t.params.lMax ∧ ∀ j, t.yLen.toNat ≤ j → bitAt t.y j = false)

/-- 41_hamming.md R150: HAM_RBITS changes RESULT and STATUS only; every bit of A, G and Y is as before. -/
def Obligations.HamRbitsFrame : Prop :=
  ∀ s t : State, exec .hamRbits s = .next t →
    t = { s with result := t.result, err := .noError, done := true, busy := false }

/-- 41_hamming.md R170: HAM_DEC changes RESULT, STATUS and at most one bit of A, the one RESULT names, and that only
when it reports no error. -/
def Obligations.HamDecFrame : Prop :=
  ∀ s t : State, exec .hamDec s = .next t →
    t = { s with a := t.a, result := t.result, err := t.err, done := true, busy := false } ∧
    t.a.length = s.a.length ∧
    (∀ j, bitAt t.a j ≠ bitAt s.a j → t.err = .noError ∧ j + 1 = hamSyndrome s) ∧
    (t.err = .badLength → t.result = s.result) ∧
    (t.err ≠ .badLength → t.result = BitVec.ofNat 32 (hamSyndrome s))

/-- 60_exceptions.md R183: for codes 1, 2, 4 and 5 only STATUS changes; for code 3, which only HAM_DEC reports, RESULT
gets the syndrome and A is unchanged. -/
def Obligations.ErrorsLeaveOnlyTheNamedState : Prop :=
  ∀ (s t : State), EngineMoves s → step s = .next t → t.err ≠ .noError →
    (t.err ≠ .uncorrectableSyndrome → t = { s with err := t.err, done := true, busy := false }) ∧
    (t.err = .uncorrectableSyndrome →
      t = { s with
        result := BitVec.ofNat 32 (hamSyndrome s), err := t.err, done := true, busy := false } ∧
        s.cmd = encode .hamDec)

/-- 60_exceptions.md R181: every completion, whatever the word and the operands and with or without error, sets DONE and
leaves the engine idle, and the next command is accepted at once. -/
def Obligations.EveryCommandCompletes : Prop :=
  ∀ s : State, EngineMoves s →
    ∃ t, step s = .next t ∧ t.busy = false ∧ t.done = true ∧
      (t.err = .illegalCommand ↔ ∃ why, decode s.cmd = .illegal why) ∧
      ∀ v, ∃ turns drawn : Nat, portEvent (.write (regAddr t.params .cmd) 4 v) t =
        .next { t with
          cmd := v, err := .noError, done := false, busy := true, hostTurns := turns, draws := drawn }

/-- 00_scope.md R19; 20_memory.md R69: what a command reports depends only on the operand registers and on the buffer
bits below the lengths. -/
def Obligations.OutcomeDependsOnOperandsOnly : Prop :=
  ∀ (i : Instr) (s t s' t' : State), Inv s → Inv t →
    s.params = t.params → s.aLen = t.aLen → s.gLen = t.gLen → s.arg = t.arg →
    (∀ j < lenA s, bitAt s.a j = bitAt t.a j) → (∀ j < lenG s, bitAt s.g j = bitAt t.g j) →
    exec i s = .next s' → exec i t = .next t' →
    s'.err = t'.err ∧
    (s'.err = .noError → i = .crcRem ∨ i = .crcVerify ∨ i = .hamEnc → s'.y = t'.y ∧ s'.yLen = t'.yLen) ∧
    (s'.err = .noError ∨ s'.err = .uncorrectableSyndrome → i ≠ .crcRem → s'.result = t'.result) ∧
    ∀ j < lenA s, bitAt s'.a j = bitAt t'.a j

/-! ## Properties of the divider -/

/-- 40_crc.md R115 (which the spec marks as general knowledge): the divider computes the polynomial remainder. -/
def Obligations.CrcDividerIsPolynomialRemainder : Prop :=
  ∀ w gs : Bits, bitAt gs 0 = true → gs.length ≤ w.length →
    (crcDivide w gs (w.length - (gs.length - 1))).length = gs.length - 1 ∧
    Sys2Proof.bitsPoly (crcDivide w gs (w.length - (gs.length - 1))) =
      Sys2Proof.bitsPoly w %ₘ Sys2Proof.bitsPoly gs

/-- 40_crc.md R116: the divider is linear. -/
def Obligations.CrcDividerIsLinear : Prop :=
  ∀ (u v gs : Bits) (steps : Nat), u.length = v.length →
    crcDivide (List.zipWith xor u v) gs steps = List.zipWith xor (crcDivide u gs steps) (crcDivide v gs steps)

/-- 40_crc.md R113: after step `i` bit `i` is 0; a step changes only its window; after all steps the leading bits are 0. -/
def Obligations.DividerStepsClearLeadingBits : Prop :=
  ∀ (w gs : Bits), bitAt gs 0 = true →
    (∀ i, bitAt (crcStep gs w i) i = false ∧
      ∀ j, j < i ∨ i + gs.length ≤ j → bitAt (crcStep gs w i) j = bitAt w j) ∧
    ∀ steps, ∀ j < steps, bitAt ((List.range steps).foldl (crcStep gs) w) j = false

/-- 40_crc.md R123, the round trip: CRC_VERIFY passes on a codeword. -/
def Obligations.CrcRoundTrip : Prop :=
  ∀ (s : State) (d gs : Bits), 1 ≤ d.length → 2 ≤ gs.length → bitAt gs 0 = true →
    gs.length ≤ s.params.gMax → d.length + (gs.length - 1) ≤ s.params.lMax →
    lenA s = d.length + (gs.length - 1) → lenG s = gs.length →
    prefixBits (lenA s) s.a = codeword d gs → prefixBits (lenG s) s.g = gs →
    exec .crcVerify s =
      .next { s with
        y := zeros s.params.lMax, yLen := BitVec.ofNat 32 (gs.length - 1), result := 1
        err := .noError, done := true, busy := false }

/-- 40_crc.md R124 (its divisibility step is marked general knowledge): a flipped bit of a codeword is detected at
every index iff the generator has two or more 1 bits; a one-term generator misses exactly the flips in the data. -/
def Obligations.CrcSingleBitDetection : Prop :=
  ∀ (s : State) (d gs : Bits) (e : Nat), 1 ≤ d.length → 2 ≤ gs.length → bitAt gs 0 = true →
    gs.length ≤ s.params.gMax → d.length + (gs.length - 1) ≤ s.params.lMax →
    lenA s = d.length + (gs.length - 1) → lenG s = gs.length → e < lenA s →
    prefixBits (lenA s) s.a = flipBit (codeword d gs) e → prefixBits (lenG s) s.g = gs →
    ∃ t, exec .crcVerify s = .next t ∧ t.err = .noError ∧
      t.result = if 2 ≤ gs.count true ∨ d.length ≤ e then 0 else 1

/-! ## Properties of the Hamming codec -/

/-- 41_hamming.md R151: `rbits` is minimal and monotone. -/
def Obligations.RbitsIsLeastAndMonotone : Prop :=
  (∀ m, LeastRedundancy m (rbits m)) ∧ ∀ m m' : Nat, m ≤ m' → rbits m ≤ rbits m'

/-- 41_hamming.md R143: the parity positions of a packet are the `r` powers of two, the data positions number `m`. -/
def Obligations.ParityPositionsOfAPacket : Prop :=
  rbits 0 = 0 ∧ ∀ m n r : Nat, r = rbits m → n = m + r → 1 ≤ r →
    (∀ p, (1 ≤ p ∧ p ≤ n ∧ isPow2 p = true) ↔ ∃ i < r, p = 2 ^ i) ∧
    ((List.range n).filter fun j => !isPow2 (j + 1)).length = m ∧
    2 ^ (r - 1) < n ∧ n + 1 ≤ 2 ^ r

/-- 41_hamming.md R161: every check of a packet, parity bit included, has even count. -/
def Obligations.PacketParityIsEven : Prop :=
  ∀ (d : Bits) (n i : Nat), n = d.length + rbits d.length → i < rbits d.length →
    checkCount (hamPacket d) i n true % 2 = 0

/-- 41_hamming.md R162: the data positions of a packet hold the data in order. -/
def Obligations.PacketCarriesItsData : Prop :=
  ∀ d : Bits, (hamPacket d).length = d.length + rbits d.length ∧ dataOf (hamPacket d) = d

/-- 41_hamming.md R172: a clean packet decodes with RESULT = 0, ERR = 0 and A unchanged. -/
def Obligations.CleanPacketDecodesToZero : Prop :=
  ∀ (s : State) (d : Bits), d.length + rbits d.length ≤ s.params.lMax →
    lenA s = d.length + rbits d.length → s.arg.toNat = rbits d.length →
    prefixBits (lenA s) s.a = hamPacket d →
    exec .hamDec s = .next { s with result := 0, err := .noError, done := true, busy := false }

/-- 41_hamming.md R173: one flipped position is located, that one bit of A is inverted, and A is the packet again. -/
def Obligations.SingleErrorIsCorrected : Prop :=
  ∀ (s : State) (d : Bits) (p : Nat), Memory.wf s → d.length + rbits d.length ≤ s.params.lMax →
    lenA s = d.length + rbits d.length → s.arg.toNat = rbits d.length → 1 ≤ p → p ≤ lenA s →
    prefixBits (lenA s) s.a = flipBit (hamPacket d) (p - 1) →
    exec .hamDec s =
        .next { s with
          a := flipBit s.a (p - 1), result := BitVec.ofNat 32 p
          err := .noError, done := true, busy := false } ∧
      prefixBits (lenA s) (flipBit s.a (p - 1)) = hamPacket d

/-- 41_hamming.md R174: two flipped positions give the syndrome `p XOR q`; it is reported as uncorrectable where it
lies past the packet, and is a miscorrection where it does not. -/
def Obligations.DoubleErrorOutcomes : Prop :=
  ∀ (s : State) (d : Bits) (p q e : Nat), d.length + rbits d.length ≤ s.params.lMax →
    lenA s = d.length + rbits d.length → s.arg.toNat = rbits d.length →
    1 ≤ p → p ≤ lenA s → 1 ≤ q → q ≤ lenA s → p ≠ q → e = p ^^^ q →
    prefixBits (lenA s) s.a = flipBit (flipBit (hamPacket d) (p - 1)) (q - 1) →
    e ≠ 0 ∧
    (lenA s < e →
      exec .hamDec s =
        .next { s with
          result := BitVec.ofNat 32 e, err := .uncorrectableSyndrome, done := true, busy := false }) ∧
    (e ≤ lenA s →
      e ≠ p ∧ e ≠ q ∧
      exec .hamDec s =
        .next { s with
          a := flipBit s.a (e - 1), result := BitVec.ofNat 32 e
          err := .noError, done := true, busy := false })

/-- 41_hamming.md R171: checks past the packet give 0, the syndrome is bounded, and a larger `r` changes nothing, so
that stopping early (log 10) computes R170's sum. -/
def Obligations.ChecksPastThePacketAddNothing : Prop :=
  ∀ (p : Bits) (n : Nat),
    (∀ i, n < 2 ^ i → syndromeBit p n i = 0) ∧
    (∀ r, syndromeOver p n r ≤ 2 ^ n.size - 1 ∧ (1 ≤ n → syndromeOver p n r < 2 * n) ∧
      (n ≤ 32768 → syndromeOver p n r ≤ 65535)) ∧
    (∀ m r, n = m + rbits m → rbits m ≤ r → syndromeOver p n r = syndromeOver p n (rbits m)) ∧
    ∀ r, syndromeOver p n (checksMade n r) = syndromeOver p n r

/-- 70_reset_and_hazards.md R221, and more: a HAM_DEC that reported no error leaves a string on which a second one with
the same ARG finds nothing. -/
def Obligations.SecondDecodeFindsNothing : Prop :=
  ∀ s t : State, Inv s → exec .hamDec s = .next t → t.err = .noError →
    exec .hamDec t = .next { t with result := 0, err := .noError, done := true, busy := false }

/-! ## The whole machine -/

/-- The machine right after reset meets the invariant. -/
def Obligations.ResetMeetsTheInvariant : Prop := Inv State.reset

/-- Every step keeps the invariant and the parameters (00_scope.md R7; 10_state.md R30, R34, R41; 41_hamming.md R171;
70_reset_and_hazards.md R210). -/
def Obligations.StepKeepsTheInvariant : Prop :=
  ∀ s t : State, Inv s → step s = .next t → Inv t ∧ t.params = s.params

/-- 93_implementation_defined.md section 1 ("no behaviour of the block is stuck"): while the host makes only admitted
accesses, every step has a next state, and the accesses still to come stay admitted. -/
def Obligations.AdmittedRunNeverStops : Prop :=
  ∀ (s : State) (n : Nat), portAdmitted s.params s.rst s.port = true →
    ∃ t, Host.Core.run Sys2Proof.core n s = .next t ∧ portAdmitted t.params t.rst t.port = true

/-- 70_reset_and_hazards.md R223 and 60_exceptions.md R182: BUSY does not stay 1 for ever: after at most the drawn
number of host events the command completes (or a reset has abandoned it); and so it does beside any host program, one
that loops without an access included, unless that host makes an access that is refused. The count of host turns is the
model's field (log 6), and the statement holds for every value of it. -/
def Obligations.BusyEndsWithinTheHostTurns : Prop :=
  (∀ s : State, s.busy = true → s.rst = false → portAdmitted s.params s.rst s.port = true →
    ∃ n t, n ≤ s.hostTurns + 1 ∧ Host.Core.run Sys2Proof.core n s = .next t ∧ t.busy = false) ∧
  ∀ h : HostRun, h.block.busy = true → h.block.rst = false →
    ∃ n, n ≤ 2 * h.block.hostTurns + 1 ∧
      ((∃ h', hostRunFor n h = .next h' ∧ h'.block.busy = false) ∨
        (¬ HostAdmitted h ∧ ∃ r, hostRunFor n h = .refused r))

/-- 20_memory.md R74: while a command runs no host access changes its word, its operands or its results. -/
def Obligations.OperandsFrozenWhileBusy : Prop :=
  ∀ s t : State, s.busy = true → ¬ EngineMoves s → (∀ rest, s.port ≠ .rst true :: rest) → step s = .next t →
    t.busy = true ∧ t.cmd = s.cmd ∧ t.arg = s.arg ∧ t.aLen = s.aLen ∧ t.gLen = s.gLen ∧ t.a = s.a ∧ t.g = s.g ∧
      t.y = s.y ∧ t.yLen = s.yLen ∧ t.result = s.result ∧ t.err = s.err

/-- 70_reset_and_hazards.md R218; 60_exceptions.md R185: results change at completions and resets only, and ERR besides
only at an acceptance, which clears it. -/
def Obligations.ResultsLiveUntilACompletion : Prop :=
  ∀ s t : State, ¬ EngineMoves s → (∀ rest, s.port ≠ .rst true :: rest) → step s = .next t →
    t.y = s.y ∧ t.yLen = s.yLen ∧ t.result = s.result ∧
      (t.err = s.err ∨ (t.err = .noError ∧ s.busy = false ∧ t.busy = true))

/-- 70_reset_and_hazards.md R217: once a command is accepted, BUSY or DONE shows until the host clears DONE or a reset
comes, so that polling cannot miss a command. -/
def Obligations.PollingNeverMissesACommand : Prop :=
  ∀ s t : State, s.busy = true ∨ s.done = true →
    (∀ rest, s.port ≠ .rst true :: rest) →
    (∀ v rest, v.getLsbD 1 = true → s.port ≠ .write (regAddr s.params .status) 4 v :: rest) →
    step s = .next t → t.busy = true ∨ t.done = true

/-! ## The host notation -/

/-- 30_encoding.md R99: `ldbits` on an idle block loads the string and its length, and nothing else but the rest of the
last word. -/
def Obligations.LdbitsLoadsTheString : Prop :=
  ∀ (s : State) (x : Buf) (bits : Bits), Inv s → s.busy = false → s.rst = false → x ≠ .y →
    bits.length ≤ (bufferOf s x).length → s.port = programEvents s.params [] (ldbitsStmts x bits) →
    ∃ t, Host.Core.run Sys2Proof.core (1 + wordsFor bits.length) s = .next t ∧ t.port = [] ∧
      (storedReg t (lengthReg x)).toNat = bits.length ∧ prefixBits bits.length (bufferOf t x) = bits ∧
      (∀ j, bits.length ≤ j → j < 32 * wordsFor bits.length → bitAt (bufferOf t x) j = false) ∧
      (∀ j, 32 * wordsFor bits.length ≤ j → bitAt (bufferOf t x) j = bitAt (bufferOf s x) j) ∧
      (∀ z, z ≠ x → bufferOf t z = bufferOf s z) ∧
      t = { s with
        a := t.a, g := t.g, aLen := t.aLen, gLen := t.gLen, port := [], hostTurns := t.hostTurns } ∧
      (∀ z, z ≠ x → storedReg t (lengthReg z) = storedReg s (lengthReg z))

/-- 30_encoding.md R100 and 70_reset_and_hazards.md R223: the polling loop of `wait` ends, and leaves in its temporary
a STATUS with BUSY = 0 and DONE = 1 (the host's own statements are the model's, log 11). -/
def Obligations.WaitLoopEnds : Prop :=
  ∀ (h : HostRun) (before after : List Stmt) (l t : Nat),
    h.prog = before ++ waitStmts l t ++ after → .label l ∉ before → h.hpc = before.length → h.awaiting = [] →
    h.block.busy = true → h.block.rst = false → h.block.port = [] →
    ∃ k h', hostRunFor k h = .next h' ∧ h'.prog = h.prog ∧ h'.hpc = h.hpc + 3 ∧ h'.awaiting = [] ∧
      h'.block.busy = false ∧ h'.block.done = true ∧ tempOf h'.temps t = statusWord h'.block ∧
      (tempOf h'.temps t).getLsbD 0 = false ∧ (tempOf h'.temps t).getLsbD 1 = true

/-- 30_encoding.md R102: the events of `rdbits` on an idle block read the string back (in which temporaries the host keeps
them is the model's choice, log 13). -/
def Obligations.RdbitsReadsTheString : Prop :=
  ∀ (s : State) (x : ReadBuf) (len tmp : Nat), Inv s → s.busy = false → s.rst = false →
    len = (storedReg s (lengthReg x.buf)).toNat → len ≤ (bufferOf s x.buf).length →
    s.port = programEvents s.params [(tmp, storedReg s (lengthReg x.buf))] (rdbitsStmts x tmp) →
    ∃ (t : State) (ws : List Word), Host.Core.run Sys2Proof.core (1 + wordsFor len) s = .next t ∧
      t.replies = ws.reverse ++ storedReg s (lengthReg x.buf) :: s.replies ∧ ws.length = wordsFor len ∧
      rdbitsString len ws = prefixBits len (bufferOf s x.buf) ∧
      t = { s with port := [], replies := t.replies, hostTurns := t.hostTurns }

/-- 30_encoding.md R98, R101: `cmd`, `ack` and `ackovr` are the writes the rules give, and `ack` drops `irq` while
leaving ERR and OVR. -/
def Obligations.CommandAndAcknowledgeStatements : Prop :=
  (∀ (p : Params) (i : Instr),
      programEvents p [] (cmdStmts i) = [.write (p.base + 0x0008) 4 (encode i)] ∧
      programEvents p [] ackStmts = [.write (p.base + 0x000C) 4 0x00000002] ∧
      programEvents p [] ackovrStmts = [.write (p.base + 0x000C) 4 0x00000004]) ∧
    ∀ s : State, s.rst = false → ¬ EngineMoves s →
      (s.port = programEvents s.params [] ackStmts →
        ∃ t, step s = .next t ∧ t.done = false ∧ irq t = false ∧ t.ovr = s.ovr ∧ t.err = s.err ∧ t.busy = s.busy) ∧
      (s.port = programEvents s.params [] ackovrStmts →
        ∃ t, step s = .next t ∧ t.ovr = false ∧ t.done = s.done ∧ t.err = s.err ∧ t.busy = s.busy)

/-- 30_encoding.md R102: a host that runs `rdbits` beside an idle block reads the length register, then as many words as
the length it has read takes, and holds the string; it changes no other temporary and nothing of the block (which
temporaries it fills is the model's choice, log 13). -/
def Obligations.RdbitsRunsAtTheCurrentLength : Prop :=
  ∀ (h : HostRun) (before after : List Stmt) (x : ReadBuf) (t len : Nat),
    h.prog = before ++ rdbitsStmts x t ++ after → h.hpc = before.length → h.awaiting = [] → Inv h.block →
    h.block.busy = false → h.block.rst = false → h.block.port = [] →
    len = (storedReg h.block (lengthReg x.buf)).toNat → len ≤ (bufferOf h.block x.buf).length →
    ∃ k h', hostRunFor k h = .next h' ∧ h'.prog = h.prog ∧ h'.hpc = h.hpc + 2 ∧ h'.awaiting = [] ∧
      (tempOf h'.temps t).toNat = len ∧ rdbitsOf h'.temps t = prefixBits len (bufferOf h.block x.buf) ∧
      (∀ u, u < t ∨ t + wordsFor len < u → tempOf h'.temps u = tempOf h.temps u) ∧
      h'.block = { h.block with replies := h'.block.replies, hostTurns := h'.block.hostTurns }
end

