-- ==== Sys2Proof/Laws/Bits.lean ====
section
/-! SUPPORT. What each operation on bit strings does, bit by bit. -/

namespace Sys2Proof.Machine

theorem bitAt_of_length_le {s : Bits} {j : Nat} (h : s.length ≤ j) : bitAt s j = false := by
  simp [bitAt, List.getD_eq_getElem?_getD, List.getElem?_eq_none h]

@[simp] theorem bitAt_nil (j : Nat) : bitAt [] j = false := rfl

@[simp] theorem bitAt_cons_zero (b : Bool) (s : Bits) : bitAt (b :: s) 0 = b := rfl

@[simp] theorem bitAt_cons_succ (b : Bool) (s : Bits) (j : Nat) : bitAt (b :: s) (j + 1) = bitAt s j := rfl

theorem bitAt_eq_getElem {s : Bits} {j : Nat} (h : j < s.length) : bitAt s j = s[j] := by
  simp [bitAt, List.getD_eq_getElem?_getD, List.getElem?_eq_getElem h]

theorem bits_ext {s t : Bits} (hl : s.length = t.length) (h : ∀ j < s.length, bitAt s j = bitAt t j) : s = t := by
  apply List.ext_getElem hl
  intro j hs ht
  rw [← bitAt_eq_getElem hs, ← bitAt_eq_getElem ht, h j hs]

@[simp] theorem length_zeros (k : Nat) : (zeros k).length = k := by simp [zeros]

@[simp] theorem bitAt_zeros (k j : Nat) : bitAt (zeros k) j = false := by
  unfold bitAt zeros
  rw [List.getD_eq_getElem?_getD, List.getElem?_replicate]
  split <;> rfl

theorem bitAt_append (s t : Bits) (j : Nat) :
    bitAt (s ++ t) j = if j < s.length then bitAt s j else bitAt t (j - s.length) := by
  simp only [bitAt, List.getD_eq_getElem?_getD, List.getElem?_append]
  split <;> rfl

theorem bitAt_drop (s : Bits) (n j : Nat) : bitAt (s.drop n) j = bitAt s (n + j) := by
  simp [bitAt, List.getD_eq_getElem?_getD]

theorem bitAt_set (s : Bits) (n j : Nat) (b : Bool) :
    bitAt (s.set n b) j = if j = n ∧ n < s.length then b else bitAt s j := by
  simp only [bitAt, List.getD_eq_getElem?_getD, List.getElem?_set]
  by_cases h : n = j
  · subst h
    by_cases hn : n < s.length
    · simp [hn]
    · simp [hn]
  · simp [h, Ne.symm h]

@[simp] theorem length_prefixBits (n : Nat) (s : Bits) : (prefixBits n s).length = n := by
  induction n generalizing s with
  | zero => rfl
  | succ n ih => cases s <;> simp [prefixBits, ih]

theorem bitAt_prefixBits (n : Nat) (s : Bits) (j : Nat) :
    bitAt (prefixBits n s) j = if j < n then bitAt s j else false := by
  induction n generalizing s j with
  | zero => simp [prefixBits]
  | succ n ih => cases s <;> cases j <;> simp [prefixBits, ih]

theorem prefixBits_length (s : Bits) : prefixBits s.length s = s :=
  bits_ext (by simp) fun j hj => by
    rw [length_prefixBits] at hj
    simp [bitAt_prefixBits, hj]

theorem prefixBits_congr {n : Nat} {s t : Bits} (h : ∀ j < n, bitAt s j = bitAt t j) :
    prefixBits n s = prefixBits n t :=
  bits_ext (by simp) fun j hj => by
    rw [length_prefixBits] at hj
    simp [bitAt_prefixBits, hj, h j hj]

theorem length_zeroFill {cap : Nat} {s : Bits} (h : s.length ≤ cap) : (zeroFill cap s).length = cap := by
  simp [zeroFill]; omega

theorem bitAt_zeroFill (cap : Nat) (s : Bits) (j : Nat) : bitAt (zeroFill cap s) j = bitAt s j := by
  rw [zeroFill, bitAt_append]
  split
  · rfl
  · rw [bitAt_zeros, bitAt_of_length_le (by omega)]

@[simp] theorem length_xorHead (s p : Bits) : (xorHead s p).length = s.length := by
  induction s generalizing p with
  | nil => rfl
  | cons b s ih => cases p <;> simp [xorHead, ih]

theorem bitAt_xorHead (s p : Bits) (j : Nat) :
    bitAt (xorHead s p) j = if j < s.length then bitAt s j ^^ bitAt p j else false := by
  induction s generalizing p j with
  | nil => simp [xorHead]
  | cons b s ih =>
    cases p with
    | nil =>
      simp only [xorHead, bitAt_nil, Bool.xor_false]
      split
      · rfl
      · exact bitAt_of_length_le (by omega)
    | cons c p => cases j <;> simp [xorHead, ih]

@[simp] theorem length_xorAt (s : Bits) (i : Nat) (p : Bits) : (xorAt s i p).length = s.length := by
  induction s generalizing i with
  | nil => cases i <;> simp [xorAt]
  | cons b s ih => cases i <;> simp [xorAt, ih]

/-- The XOR changes the window from `i` on, and only there (40_crc.md R111). -/
theorem bitAt_xorAt (s : Bits) (i : Nat) (p : Bits) (j : Nat) :
    bitAt (xorAt s i p) j =
      if j < s.length then bitAt s j ^^ (decide (i ≤ j) && bitAt p (j - i)) else false := by
  induction s generalizing i j with
  | nil => cases i <;> simp [xorAt, xorHead]
  | cons b s ih =>
    cases i with
    | zero => simp [xorAt, bitAt_xorHead]
    | succ i => cases j <;> simp [xorAt, ih]

@[simp] theorem length_flipBit (s : Bits) (j : Nat) : (flipBit s j).length = s.length := by simp [flipBit]

theorem bitAt_flipBit (s : Bits) (i j : Nat) :
    bitAt (flipBit s i) j = if j = i ∧ i < s.length then !bitAt s j else bitAt s j := by
  rw [flipBit, bitAt_set]
  split <;> simp_all

theorem testBit_packBits (s : Bits) (j : Nat) : (packBits s).testBit j = bitAt s j := by
  induction s generalizing j with
  | nil => simp [packBits]
  | cons b s ih =>
    cases j with
    | zero => cases b <;> simp [packBits, Nat.testBit_zero]
    | succ j =>
      rw [bitAt_cons_succ, ← ih, packBits, Nat.testBit_succ]
      congr 1
      cases b
      · simp
      · simp; omega

theorem getLsbD_windowWord (buf : Bits) (w b : Nat) :
    (windowWord buf w).getLsbD b = if b < 32 then bitAt buf (32 * w + b) else false := by
  simp only [windowWord, BitVec.getLsbD_ofNat, testBit_packBits, bitAt_prefixBits, bitAt_drop]
  by_cases h : b < 32 <;> simp [h]

theorem setBits_spec (v : Word) (w n : Nat) (buf : Bits) :
    ((List.range n).foldl (fun acc b => acc.set (32 * w + b) (v.getLsbD b)) buf).length = buf.length ∧
      ∀ j, bitAt ((List.range n).foldl (fun acc b => acc.set (32 * w + b) (v.getLsbD b)) buf) j =
        if 32 * w ≤ j ∧ j < 32 * w + n ∧ j < buf.length then v.getLsbD (j - 32 * w) else bitAt buf j := by
  induction n with
  | zero => simp; intro j h1 h2; omega
  | succ n ih =>
    obtain ⟨hl, hb⟩ := ih
    rw [List.range_succ, List.foldl_append]
    refine ⟨by simp [hl], fun j => ?_⟩
    simp only [List.foldl_cons, List.foldl_nil, bitAt_set, hl, hb]
    by_cases hj : j = 32 * w + n
    · subst hj
      by_cases hlt : 32 * w + n < buf.length <;> simp [hlt]
    · have : (32 * w ≤ j ∧ j < 32 * w + (n + 1) ∧ j < buf.length) ↔
          (32 * w ≤ j ∧ j < 32 * w + n ∧ j < buf.length) := by omega
      simp [hj, this]

@[simp] theorem length_setWindowWord (buf : Bits) (w : Nat) (v : Word) :
    (setWindowWord buf w v).length = buf.length := (setBits_spec v w 32 buf).1

/-- A window write changes the existing bits of its word and no other (20_memory.md R63). -/
theorem bitAt_setWindowWord (buf : Bits) (w : Nat) (v : Word) (j : Nat) :
    bitAt (setWindowWord buf w v) j =
      if j < buf.length ∧ j / 32 = w then v.getLsbD (j % 32) else bitAt buf j := by
  rw [setWindowWord, (setBits_spec v w 32 buf).2]
  have hiff : (32 * w ≤ j ∧ j < 32 * w + 32 ∧ j < buf.length) ↔ (j < buf.length ∧ j / 32 = w) := by omega
  by_cases h : j < buf.length ∧ j / 32 = w
  · rw [if_pos h, if_pos (hiff.mpr h)]
    congr 1; omega
  · rw [if_neg h, if_neg (fun h' => h (hiff.mp h'))]

/-- `is_pow2` says what 00_scope.md R10 says. -/
theorem isPow2_iff (p : Nat) : isPow2 p = true ↔ ∃ i, p = 2 ^ i := by
  simp only [isPow2, beq_iff_eq]
  constructor
  · exact fun h => ⟨_, h⟩
  · rintro ⟨i, rfl⟩
    rw [Nat.log2_two_pow]

end Sys2Proof.Machine
end

