-- ==== Sys2Proof/Laws/State.lean ====
section
/-! SUPPORT. What each named update of the state does to each field, so that no later proof unfolds a record update. -/

namespace Sys2Proof.Machine

@[simp] theorem complete_params (k : ErrorKind) (s : State) : (complete k s).params = s.params := rfl
@[simp] theorem complete_rst (k : ErrorKind) (s : State) : (complete k s).rst = s.rst := rfl
@[simp] theorem complete_busy (k : ErrorKind) (s : State) : (complete k s).busy = false := rfl
@[simp] theorem complete_done (k : ErrorKind) (s : State) : (complete k s).done = true := rfl
@[simp] theorem complete_ovr (k : ErrorKind) (s : State) : (complete k s).ovr = s.ovr := rfl
@[simp] theorem complete_err (k : ErrorKind) (s : State) : (complete k s).err = k := rfl
@[simp] theorem complete_ie (k : ErrorKind) (s : State) : (complete k s).ie = s.ie := rfl
@[simp] theorem complete_cmd (k : ErrorKind) (s : State) : (complete k s).cmd = s.cmd := rfl
@[simp] theorem complete_result (k : ErrorKind) (s : State) : (complete k s).result = s.result := rfl
@[simp] theorem complete_arg (k : ErrorKind) (s : State) : (complete k s).arg = s.arg := rfl
@[simp] theorem complete_aLen (k : ErrorKind) (s : State) : (complete k s).aLen = s.aLen := rfl
@[simp] theorem complete_gLen (k : ErrorKind) (s : State) : (complete k s).gLen = s.gLen := rfl
@[simp] theorem complete_yLen (k : ErrorKind) (s : State) : (complete k s).yLen = s.yLen := rfl
@[simp] theorem complete_a (k : ErrorKind) (s : State) : (complete k s).a = s.a := rfl
@[simp] theorem complete_g (k : ErrorKind) (s : State) : (complete k s).g = s.g := rfl
@[simp] theorem complete_y (k : ErrorKind) (s : State) : (complete k s).y = s.y := rfl
@[simp] theorem complete_port (k : ErrorKind) (s : State) : (complete k s).port = s.port := rfl
@[simp] theorem complete_replies (k : ErrorKind) (s : State) : (complete k s).replies = s.replies := rfl
@[simp] theorem complete_hostTurns (k : ErrorKind) (s : State) : (complete k s).hostTurns = s.hostTurns := rfl
@[simp] theorem complete_draws (k : ErrorKind) (s : State) : (complete k s).draws = s.draws := rfl

@[simp] theorem putY_params (bits : Bits) (s : State) : (putY bits s).params = s.params := rfl
@[simp] theorem putY_rst (bits : Bits) (s : State) : (putY bits s).rst = s.rst := rfl
@[simp] theorem putY_busy (bits : Bits) (s : State) : (putY bits s).busy = s.busy := rfl
@[simp] theorem putY_done (bits : Bits) (s : State) : (putY bits s).done = s.done := rfl
@[simp] theorem putY_ovr (bits : Bits) (s : State) : (putY bits s).ovr = s.ovr := rfl
@[simp] theorem putY_err (bits : Bits) (s : State) : (putY bits s).err = s.err := rfl
@[simp] theorem putY_ie (bits : Bits) (s : State) : (putY bits s).ie = s.ie := rfl
@[simp] theorem putY_cmd (bits : Bits) (s : State) : (putY bits s).cmd = s.cmd := rfl
@[simp] theorem putY_result (bits : Bits) (s : State) : (putY bits s).result = s.result := rfl
@[simp] theorem putY_arg (bits : Bits) (s : State) : (putY bits s).arg = s.arg := rfl
@[simp] theorem putY_aLen (bits : Bits) (s : State) : (putY bits s).aLen = s.aLen := rfl
@[simp] theorem putY_gLen (bits : Bits) (s : State) : (putY bits s).gLen = s.gLen := rfl
@[simp] theorem putY_yLen (bits : Bits) (s : State) : (putY bits s).yLen = BitVec.ofNat 32 bits.length := rfl
@[simp] theorem putY_a (bits : Bits) (s : State) : (putY bits s).a = s.a := rfl
@[simp] theorem putY_g (bits : Bits) (s : State) : (putY bits s).g = s.g := rfl
@[simp] theorem putY_y (bits : Bits) (s : State) : (putY bits s).y = zeroFill s.params.lMax bits := rfl
@[simp] theorem putY_port (bits : Bits) (s : State) : (putY bits s).port = s.port := rfl
@[simp] theorem putY_replies (bits : Bits) (s : State) : (putY bits s).replies = s.replies := rfl
@[simp] theorem putY_hostTurns (bits : Bits) (s : State) : (putY bits s).hostTurns = s.hostTurns := rfl
@[simp] theorem putY_draws (bits : Bits) (s : State) : (putY bits s).draws = s.draws := rfl

@[simp] theorem putResult_params (v : Nat) (s : State) : (putResult v s).params = s.params := rfl
@[simp] theorem putResult_rst (v : Nat) (s : State) : (putResult v s).rst = s.rst := rfl
@[simp] theorem putResult_busy (v : Nat) (s : State) : (putResult v s).busy = s.busy := rfl
@[simp] theorem putResult_done (v : Nat) (s : State) : (putResult v s).done = s.done := rfl
@[simp] theorem putResult_ovr (v : Nat) (s : State) : (putResult v s).ovr = s.ovr := rfl
@[simp] theorem putResult_err (v : Nat) (s : State) : (putResult v s).err = s.err := rfl
@[simp] theorem putResult_ie (v : Nat) (s : State) : (putResult v s).ie = s.ie := rfl
@[simp] theorem putResult_cmd (v : Nat) (s : State) : (putResult v s).cmd = s.cmd := rfl
@[simp] theorem putResult_result (v : Nat) (s : State) : (putResult v s).result = BitVec.ofNat 32 v := rfl
@[simp] theorem putResult_arg (v : Nat) (s : State) : (putResult v s).arg = s.arg := rfl
@[simp] theorem putResult_aLen (v : Nat) (s : State) : (putResult v s).aLen = s.aLen := rfl
@[simp] theorem putResult_gLen (v : Nat) (s : State) : (putResult v s).gLen = s.gLen := rfl
@[simp] theorem putResult_yLen (v : Nat) (s : State) : (putResult v s).yLen = s.yLen := rfl
@[simp] theorem putResult_a (v : Nat) (s : State) : (putResult v s).a = s.a := rfl
@[simp] theorem putResult_g (v : Nat) (s : State) : (putResult v s).g = s.g := rfl
@[simp] theorem putResult_y (v : Nat) (s : State) : (putResult v s).y = s.y := rfl
@[simp] theorem putResult_port (v : Nat) (s : State) : (putResult v s).port = s.port := rfl
@[simp] theorem putResult_replies (v : Nat) (s : State) : (putResult v s).replies = s.replies := rfl
@[simp] theorem putResult_hostTurns (v : Nat) (s : State) : (putResult v s).hostTurns = s.hostTurns := rfl
@[simp] theorem putResult_draws (v : Nat) (s : State) : (putResult v s).draws = s.draws := rfl

@[simp] theorem flipA_params (j : Nat) (s : State) : (flipA j s).params = s.params := rfl
@[simp] theorem flipA_rst (j : Nat) (s : State) : (flipA j s).rst = s.rst := rfl
@[simp] theorem flipA_busy (j : Nat) (s : State) : (flipA j s).busy = s.busy := rfl
@[simp] theorem flipA_done (j : Nat) (s : State) : (flipA j s).done = s.done := rfl
@[simp] theorem flipA_ovr (j : Nat) (s : State) : (flipA j s).ovr = s.ovr := rfl
@[simp] theorem flipA_err (j : Nat) (s : State) : (flipA j s).err = s.err := rfl
@[simp] theorem flipA_ie (j : Nat) (s : State) : (flipA j s).ie = s.ie := rfl
@[simp] theorem flipA_cmd (j : Nat) (s : State) : (flipA j s).cmd = s.cmd := rfl
@[simp] theorem flipA_result (j : Nat) (s : State) : (flipA j s).result = s.result := rfl
@[simp] theorem flipA_arg (j : Nat) (s : State) : (flipA j s).arg = s.arg := rfl
@[simp] theorem flipA_aLen (j : Nat) (s : State) : (flipA j s).aLen = s.aLen := rfl
@[simp] theorem flipA_gLen (j : Nat) (s : State) : (flipA j s).gLen = s.gLen := rfl
@[simp] theorem flipA_yLen (j : Nat) (s : State) : (flipA j s).yLen = s.yLen := rfl
@[simp] theorem flipA_a (j : Nat) (s : State) : (flipA j s).a = flipBit s.a j := rfl
@[simp] theorem flipA_g (j : Nat) (s : State) : (flipA j s).g = s.g := rfl
@[simp] theorem flipA_y (j : Nat) (s : State) : (flipA j s).y = s.y := rfl
@[simp] theorem flipA_port (j : Nat) (s : State) : (flipA j s).port = s.port := rfl
@[simp] theorem flipA_replies (j : Nat) (s : State) : (flipA j s).replies = s.replies := rfl
@[simp] theorem flipA_hostTurns (j : Nat) (s : State) : (flipA j s).hostTurns = s.hostTurns := rfl
@[simp] theorem flipA_draws (j : Nat) (s : State) : (flipA j s).draws = s.draws := rfl

@[simp] theorem overrun_params (s : State) : (overrun s).params = s.params := rfl
@[simp] theorem overrun_rst (s : State) : (overrun s).rst = s.rst := rfl
@[simp] theorem overrun_busy (s : State) : (overrun s).busy = s.busy := rfl
@[simp] theorem overrun_done (s : State) : (overrun s).done = s.done := rfl
@[simp] theorem overrun_ovr (s : State) : (overrun s).ovr = true := rfl
@[simp] theorem overrun_err (s : State) : (overrun s).err = s.err := rfl
@[simp] theorem overrun_ie (s : State) : (overrun s).ie = s.ie := rfl
@[simp] theorem overrun_cmd (s : State) : (overrun s).cmd = s.cmd := rfl
@[simp] theorem overrun_result (s : State) : (overrun s).result = s.result := rfl
@[simp] theorem overrun_arg (s : State) : (overrun s).arg = s.arg := rfl
@[simp] theorem overrun_aLen (s : State) : (overrun s).aLen = s.aLen := rfl
@[simp] theorem overrun_gLen (s : State) : (overrun s).gLen = s.gLen := rfl
@[simp] theorem overrun_yLen (s : State) : (overrun s).yLen = s.yLen := rfl
@[simp] theorem overrun_a (s : State) : (overrun s).a = s.a := rfl
@[simp] theorem overrun_g (s : State) : (overrun s).g = s.g := rfl
@[simp] theorem overrun_y (s : State) : (overrun s).y = s.y := rfl
@[simp] theorem overrun_port (s : State) : (overrun s).port = s.port := rfl
@[simp] theorem overrun_replies (s : State) : (overrun s).replies = s.replies := rfl
@[simp] theorem overrun_hostTurns (s : State) : (overrun s).hostTurns = s.hostTurns := rfl
@[simp] theorem overrun_draws (s : State) : (overrun s).draws = s.draws := rfl

@[simp] theorem accept_params (v : Word) (s : State) : (accept v s).params = s.params := rfl
@[simp] theorem accept_rst (v : Word) (s : State) : (accept v s).rst = s.rst := rfl
@[simp] theorem accept_busy (v : Word) (s : State) : (accept v s).busy = true := rfl
@[simp] theorem accept_done (v : Word) (s : State) : (accept v s).done = false := rfl
@[simp] theorem accept_ovr (v : Word) (s : State) : (accept v s).ovr = s.ovr := rfl
@[simp] theorem accept_err (v : Word) (s : State) : (accept v s).err = .noError := rfl
@[simp] theorem accept_ie (v : Word) (s : State) : (accept v s).ie = s.ie := rfl
@[simp] theorem accept_cmd (v : Word) (s : State) : (accept v s).cmd = v := rfl
@[simp] theorem accept_result (v : Word) (s : State) : (accept v s).result = s.result := rfl
@[simp] theorem accept_arg (v : Word) (s : State) : (accept v s).arg = s.arg := rfl
@[simp] theorem accept_aLen (v : Word) (s : State) : (accept v s).aLen = s.aLen := rfl
@[simp] theorem accept_gLen (v : Word) (s : State) : (accept v s).gLen = s.gLen := rfl
@[simp] theorem accept_yLen (v : Word) (s : State) : (accept v s).yLen = s.yLen := rfl
@[simp] theorem accept_a (v : Word) (s : State) : (accept v s).a = s.a := rfl
@[simp] theorem accept_g (v : Word) (s : State) : (accept v s).g = s.g := rfl
@[simp] theorem accept_y (v : Word) (s : State) : (accept v s).y = s.y := rfl
@[simp] theorem accept_port (v : Word) (s : State) : (accept v s).port = s.port := rfl
@[simp] theorem accept_replies (v : Word) (s : State) : (accept v s).replies = s.replies := rfl
@[simp] theorem accept_hostTurns (v : Word) (s : State) : (accept v s).hostTurns = Config.hostTurns s.draws := rfl
@[simp] theorem accept_draws (v : Word) (s : State) : (accept v s).draws = s.draws + 1 := rfl

@[simp] theorem writeStatus_params (v : Word) (s : State) : (writeStatus v s).params = s.params := rfl
@[simp] theorem writeStatus_rst (v : Word) (s : State) : (writeStatus v s).rst = s.rst := rfl
@[simp] theorem writeStatus_busy (v : Word) (s : State) : (writeStatus v s).busy = s.busy := rfl
@[simp] theorem writeStatus_done (v : Word) (s : State) : (writeStatus v s).done = (if v.getLsbD 1 then false else s.done) := rfl
@[simp] theorem writeStatus_ovr (v : Word) (s : State) : (writeStatus v s).ovr = (if v.getLsbD 2 then false else s.ovr) := rfl
@[simp] theorem writeStatus_err (v : Word) (s : State) : (writeStatus v s).err = s.err := rfl
@[simp] theorem writeStatus_ie (v : Word) (s : State) : (writeStatus v s).ie = s.ie := rfl
@[simp] theorem writeStatus_cmd (v : Word) (s : State) : (writeStatus v s).cmd = s.cmd := rfl
@[simp] theorem writeStatus_result (v : Word) (s : State) : (writeStatus v s).result = s.result := rfl
@[simp] theorem writeStatus_arg (v : Word) (s : State) : (writeStatus v s).arg = s.arg := rfl
@[simp] theorem writeStatus_aLen (v : Word) (s : State) : (writeStatus v s).aLen = s.aLen := rfl
@[simp] theorem writeStatus_gLen (v : Word) (s : State) : (writeStatus v s).gLen = s.gLen := rfl
@[simp] theorem writeStatus_yLen (v : Word) (s : State) : (writeStatus v s).yLen = s.yLen := rfl
@[simp] theorem writeStatus_a (v : Word) (s : State) : (writeStatus v s).a = s.a := rfl
@[simp] theorem writeStatus_g (v : Word) (s : State) : (writeStatus v s).g = s.g := rfl
@[simp] theorem writeStatus_y (v : Word) (s : State) : (writeStatus v s).y = s.y := rfl
@[simp] theorem writeStatus_port (v : Word) (s : State) : (writeStatus v s).port = s.port := rfl
@[simp] theorem writeStatus_replies (v : Word) (s : State) : (writeStatus v s).replies = s.replies := rfl
@[simp] theorem writeStatus_hostTurns (v : Word) (s : State) : (writeStatus v s).hostTurns = s.hostTurns := rfl
@[simp] theorem writeStatus_draws (v : Word) (s : State) : (writeStatus v s).draws = s.draws := rfl

@[simp] theorem takeTurn_params (rest : List PortEvent) (s : State) : (takeTurn rest s).params = s.params := rfl
@[simp] theorem takeTurn_rst (rest : List PortEvent) (s : State) : (takeTurn rest s).rst = s.rst := rfl
@[simp] theorem takeTurn_busy (rest : List PortEvent) (s : State) : (takeTurn rest s).busy = s.busy := rfl
@[simp] theorem takeTurn_done (rest : List PortEvent) (s : State) : (takeTurn rest s).done = s.done := rfl
@[simp] theorem takeTurn_ovr (rest : List PortEvent) (s : State) : (takeTurn rest s).ovr = s.ovr := rfl
@[simp] theorem takeTurn_err (rest : List PortEvent) (s : State) : (takeTurn rest s).err = s.err := rfl
@[simp] theorem takeTurn_ie (rest : List PortEvent) (s : State) : (takeTurn rest s).ie = s.ie := rfl
@[simp] theorem takeTurn_cmd (rest : List PortEvent) (s : State) : (takeTurn rest s).cmd = s.cmd := rfl
@[simp] theorem takeTurn_result (rest : List PortEvent) (s : State) : (takeTurn rest s).result = s.result := rfl
@[simp] theorem takeTurn_arg (rest : List PortEvent) (s : State) : (takeTurn rest s).arg = s.arg := rfl
@[simp] theorem takeTurn_aLen (rest : List PortEvent) (s : State) : (takeTurn rest s).aLen = s.aLen := rfl
@[simp] theorem takeTurn_gLen (rest : List PortEvent) (s : State) : (takeTurn rest s).gLen = s.gLen := rfl
@[simp] theorem takeTurn_yLen (rest : List PortEvent) (s : State) : (takeTurn rest s).yLen = s.yLen := rfl
@[simp] theorem takeTurn_a (rest : List PortEvent) (s : State) : (takeTurn rest s).a = s.a := rfl
@[simp] theorem takeTurn_g (rest : List PortEvent) (s : State) : (takeTurn rest s).g = s.g := rfl
@[simp] theorem takeTurn_y (rest : List PortEvent) (s : State) : (takeTurn rest s).y = s.y := rfl
@[simp] theorem takeTurn_port (rest : List PortEvent) (s : State) : (takeTurn rest s).port = rest := rfl
@[simp] theorem takeTurn_replies (rest : List PortEvent) (s : State) : (takeTurn rest s).replies = s.replies := rfl
@[simp] theorem takeTurn_hostTurns (rest : List PortEvent) (s : State) : (takeTurn rest s).hostTurns = s.hostTurns - 1 := rfl
@[simp] theorem takeTurn_draws (rest : List PortEvent) (s : State) : (takeTurn rest s).draws = s.draws := rfl

end Sys2Proof.Machine
end

