-- ==== Sys2Proof/Laws/Crc.lean ====
section
/-! SUPPORT. The divider step by step, and the checks of the CRC commands. -/

namespace Sys2Proof.Machine

@[simp] theorem length_crcStep (gs w : Bits) (i : Nat) : (crcStep gs w i).length = w.length := by
  unfold crcStep; split <;> simp

@[simp] theorem length_crcSteps (gs w : Bits) (l : List Nat) : (l.foldl (crcStep gs) w).length = w.length := by
  induction l generalizing w with
  | nil => rfl
  | cons i l ih => simp [ih]

/-- One step, bit by bit (40_crc.md R111). -/
theorem bitAt_crcStep (gs w : Bits) (i j : Nat) :
    bitAt (crcStep gs w i) j =
      if j < w.length then bitAt w j ^^ (bitAt w i && (decide (i ≤ j) && bitAt gs (j - i))) else false := by
  unfold crcStep
  by_cases hj : j < w.length
  · split <;> rename_i h <;> simp [bitAt_xorAt, hj, h]
  · rw [if_neg hj, bitAt_of_length_le (by simp only [apply_ite List.length, length_xorAt]; split <;> omega)]

theorem length_crcDivide (w gs : Bits) (steps : Nat) :
    (crcDivide w gs steps).length = w.length - (w.length - (gs.length - 1)) := by
  simp [crcDivide]

theorem length_crcRemainder (s : State) : (crcRemainder s).length = lenG s - 1 := by
  simp [crcRemainder, length_crcDivide, stringA, generator]

theorem length_crcReceived {s : State} (h : lenG s ≤ lenA s) : (crcReceived s).length = lenG s - 1 := by
  simp [crcReceived, length_crcDivide, stringA, generator]; omega

/-- The checks pass exactly where no error condition holds (60_exceptions.md R184). -/
theorem crcCheck_none_iff (short : Bool) (s : State) :
    crcCheck short s = none ↔
      lenA s ≤ s.params.lMax ∧ lenG s ≤ s.params.gMax ∧ short = false ∧ bitAt s.g 0 = true := by
  unfold crcCheck
  by_cases h : lenA s > s.params.lMax ∨ lenG s > s.params.gMax
  · rw [if_pos h]; constructor
    · intro h'; cases h'
    · rintro ⟨h1, h2, -⟩; omega
  · rw [if_neg h, not_or, not_lt, not_lt] at *
    cases short <;> cases bitAt s.g 0 <;> simp [h.1, h.2]

/-- The only errors the checks report. -/
theorem crcCheck_some {short : Bool} {s : State} {k : ErrorKind} (h : crcCheck short s = some k) :
    k = .badLength ∨ k = .inputTooShort ∨ k = .invalidGenerator := by
  unfold crcCheck at h
  repeat' split at h
  all_goals simp_all

end Sys2Proof.Machine
end

