-- ==== Sys2Proof/Laws/Hamming.lean ====
section
/-! SUPPORT. The check counts, the placement and the syndrome sum, each by its own recursion. -/

namespace Sys2Proof.Machine

/-! ## Covering sets and check counts -/

/-- A position takes part in check `i` iff bit `i` of it is set (41_hamming.md R140). -/
theorem covers_eq_testBit (i j : Nat) : covers i j = j.testBit i := by
  unfold covers
  rw [Nat.and_two_pow]
  cases j.testBit i <;> simp

/-- A parity position takes part in its own check only (41_hamming.md R142). -/
theorem covers_two_pow (i k : Nat) : covers i (2 ^ k) = decide (k = i) := by
  rw [covers_eq_testBit, Nat.testBit_two_pow]

/-- Whether position `j` adds to the count. -/
def countsAt (p : Bits) (i : Nat) (withSelf : Bool) (j : Nat) : Bool :=
  covers i j && (withSelf || decide (j ≠ 2 ^ i)) && bitAt p (j - 1)

@[simp] theorem checkCount_zero (p : Bits) (i : Nat) (w : Bool) : checkCount p i 0 w = 0 := rfl

theorem checkCount_succ (p : Bits) (i n : Nat) (w : Bool) :
    checkCount p i (n + 1) w = checkCount p i n w + (countsAt p i w (n + 1)).toNat := by
  unfold checkCount
  rw [List.range_succ, List.map_append, List.countP_append]
  simp only [List.map_cons, List.map_nil, List.countP_singleton, countsAt]
  cases covers i (n + 1) && (w || decide (n + 1 ≠ 2 ^ i)) && bitAt p (n + 1 - 1) <;> rfl

theorem checkCount_congr {p q : Bits} {i n : Nat} {w : Bool}
    (h : ∀ j, 1 ≤ j → j ≤ n → covers i j = true → (w = true ∨ j ≠ 2 ^ i) → bitAt p (j - 1) = bitAt q (j - 1)) :
    checkCount p i n w = checkCount q i n w := by
  induction n with
  | zero => rfl
  | succ n ih =>
    rw [checkCount_succ, checkCount_succ, ih fun j h1 h2 => h j h1 (by omega)]
    congr 2
    unfold countsAt
    by_cases hc : covers i (n + 1) = true
    · by_cases hs : w = true ∨ n + 1 ≠ 2 ^ i
      · rw [h (n + 1) (by omega) le_rfl hc hs]
      · rw [not_or, not_not] at hs
        simp [hs.1, hs.2]
    · simp [hc]

/-- The count with the check's own parity position is the count without it, and that bit. -/
theorem checkCount_self (p : Bits) {i n : Nat} (h : 2 ^ i ≤ n) :
    checkCount p i n true = checkCount p i n false + (bitAt p (2 ^ i - 1)).toNat := by
  have small : ∀ k, k < 2 ^ i → checkCount p i k true = checkCount p i k false := by
    intro k hk
    induction k with
    | zero => rfl
    | succ k ih =>
      rw [checkCount_succ, checkCount_succ, ih (by omega)]
      have : k + 1 ≠ 2 ^ i := by omega
      simp [countsAt, this]
  induction n with
  | zero => have := Nat.two_pow_pos i; omega
  | succ n ih =>
    rw [checkCount_succ, checkCount_succ]
    by_cases he : n + 1 = 2 ^ i
    · rw [small n (by omega)]
      simp [countsAt, he, covers_two_pow]
    · rw [ih (by omega)]
      simp only [countsAt, he, ne_eq, not_false_eq_true, decide_true, Bool.or_true]
      omega

/-- Beyond the packet a check covers no position (41_hamming.md R171). -/
theorem checkCount_of_lt (p : Bits) {i n : Nat} (w : Bool) (h : n < 2 ^ i) : checkCount p i n w = 0 := by
  induction n with
  | zero => rfl
  | succ n ih =>
    rw [checkCount_succ, ih (by omega)]
    simp [countsAt, covers_eq_testBit, Nat.testBit_lt_two_pow h]

/-- Inverting the bit of position `k + 1` changes the parity of exactly the checks that cover it. -/
theorem checkCount_flipBit {p : Bits} {i n k : Nat} (hk : k < p.length) :
    checkCount (flipBit p k) i n true % 2 =
      (checkCount p i n true + (decide (k < n) && covers i (k + 1)).toNat) % 2 := by
  induction n with
  | zero => simp
  | succ n ih =>
    rw [checkCount_succ, checkCount_succ, Nat.add_mod, ih]
    by_cases he : n = k
    · subst he
      simp only [countsAt, bitAt_flipBit, Nat.add_sub_cancel, hk]
      cases covers i (n + 1) <;> cases bitAt p n <;> simp
      all_goals omega
    · have h1 : (k < n + 1) ↔ k < n := by omega
      have h2 : bitAt (flipBit p k) n = bitAt p n := by rw [bitAt_flipBit, if_neg (by omega)]
      simp only [countsAt, Nat.add_sub_cancel, h1, h2]
      omega

/-! ## Lengths -/

@[simp] theorem length_place (n p : Nat) (d : Bits) : (place n p d).length = n := by
  induction n generalizing p d with
  | zero => rfl
  | succ n ih => unfold place; split <;> simp [ih]

@[simp] theorem length_setParity (n : Nat) (p : Bits) (i : Nat) : (setParity n p i).length = p.length := by
  simp [setParity]

@[simp] theorem length_setParities (n : Nat) (p : Bits) (l : List Nat) :
    (l.foldl (setParity n) p).length = p.length := by
  induction l generalizing p with
  | nil => rfl
  | cons i l ih => simp [ih]

@[simp] theorem length_hamPacket (d : Bits) : (hamPacket d).length = d.length + rbits d.length := by
  simp [hamPacket]

/-! ## The redundancy loop -/

/-- The loop answers the first value from `r` on that meets the inequality, if one is met within its fuel. -/
theorem rbitsFrom_spec (fuel r m : Nat) (h : m + (r + fuel) + 1 ≤ 2 ^ (r + fuel)) :
    r ≤ rbitsFrom fuel r m ∧ m + rbitsFrom fuel r m + 1 ≤ 2 ^ rbitsFrom fuel r m ∧
      ∀ q, r ≤ q → q < rbitsFrom fuel r m → 2 ^ q < m + q + 1 := by
  induction fuel generalizing r with
  | zero => exact ⟨le_rfl, by simpa [rbitsFrom] using h, fun q h1 h2 => by simp [rbitsFrom] at h2; omega⟩
  | succ fuel ih =>
    unfold rbitsFrom
    split
    · rename_i hr
      obtain ⟨h1, h2, h3⟩ := ih (r + 1) (by rwa [show r + 1 + fuel = r + (fuel + 1) by omega])
      refine ⟨by omega, h2, fun q hq hlt => ?_⟩
      by_cases hqr : q = r
      · subst hqr; exact hr
      · exact h3 q (by omega) hlt
    · rename_i hr
      exact ⟨le_rfl, by omega, fun q h1 h2 => by omega⟩

/-! ## The syndrome sum -/

@[simp] theorem syndromeOver_zero (p : Bits) (n : Nat) : syndromeOver p n 0 = 0 := rfl

theorem syndromeOver_succ (p : Bits) (n c : Nat) :
    syndromeOver p n (c + 1) = syndromeOver p n c + syndromeBit p n c * 2 ^ c := by
  simp [syndromeOver, List.range_succ]

theorem syndromeBit_lt (p : Bits) (n i : Nat) : syndromeBit p n i < 2 := Nat.mod_lt _ (by decide)

theorem syndromeOver_lt (p : Bits) (n c : Nat) : syndromeOver p n c < 2 ^ c := by
  induction c with
  | zero => simp
  | succ c ih =>
    rw [syndromeOver_succ, Nat.pow_succ]
    have h := syndromeBit_lt p n c
    have : syndromeBit p n c * 2 ^ c ≤ 1 * 2 ^ c := Nat.mul_le_mul_right _ (by omega)
    omega

/-- Bit `i` of the syndrome is the outcome of check `i` (41_hamming.md R170). -/
theorem testBit_syndromeOver (p : Bits) (n c i : Nat) :
    (syndromeOver p n c).testBit i = (decide (i < c) && decide (syndromeBit p n i = 1)) := by
  induction c with
  | zero => simp
  | succ c ih =>
    have hlt := syndromeOver_lt p n c
    have hb := syndromeBit_lt p n c
    rw [syndromeOver_succ, show syndromeOver p n c + syndromeBit p n c * 2 ^ c =
      2 ^ c * syndromeBit p n c + syndromeOver p n c by ring, Nat.testBit_two_pow_mul_add _ hlt]
    split
    · rename_i hi
      have : i < c + 1 := by omega
      simp [ih, hi, this]
    · rename_i hi
      by_cases he : i = c
      · subst he
        have : syndromeBit p n i = 0 ∨ syndromeBit p n i = 1 := by omega
        rcases this with h | h <;> simp [h]
      · have h1 : 1 ≤ i - c := by omega
        have : syndromeBit p n c < 2 ^ (i - c) :=
          lt_of_lt_of_le hb (by simpa using Nat.pow_le_pow_right (n := 2) (by decide) h1)
        have hni : ¬ i < c + 1 := by omega
        simp [Nat.testBit_lt_two_pow this, hni]

end Sys2Proof.Machine
end

