-- ==== Sys2Proof/Laws/HostProgram.lean ====
section
/-! SUPPORT. What one step of a host beside the block can do, and the reads of its temporaries. -/

namespace Sys2Proof.Machine

@[simp] theorem tempOf_cons_self (temps : List (Nat × Word)) (t : Nat) (v : Word) : tempOf ((t, v) :: temps) t = v := by
  simp [tempOf]

theorem tempOf_cons_of_ne {temps : List (Nat × Word)} {t u : Nat} {v : Word} (h : u ≠ t) :
    tempOf ((u, v) :: temps) t = tempOf temps t := by
  simp [tempOf, h]

@[simp] theorem evalWord_lit (temps : List (Nat × Word)) (n : Nat) : evalWord temps (.lit n) = BitVec.ofNat 32 n := rfl

@[simp] theorem evalWord_word (temps : List (Nat × Word)) (v : Word) : evalWord temps (.word v) = v := by
  simp [evalWord, HostExp.word, evalExp]

theorem completionDue_iff (s : State) : completionDue s = true ↔ s.busy = true ∧ s.rst = false ∧ s.hostTurns = 0 := by
  simp [completionDue, and_assoc]

theorem completionDue_idle {s : State} (h : s.busy = false) : completionDue s = false := by simp [completionDue, h]

theorem completionDue_turns {s : State} {n : Nat} (h : s.hostTurns = n + 1) : completionDue s = false := by
  simp [completionDue, h]

/-- With nothing at the port and no completion due, the host issues the statement its program counter names. -/
theorem hostStep_issue {h : HostRun} {st : Stmt} (hp : h.block.port = []) (hd : completionDue h.block = false)
    (hst : h.prog[h.hpc]? = some st) :
    hostStep h =
      .next { h with
        hpc := nextIndex h st, awaiting := h.awaiting ++ stmtFills h.temps st
        block := { h.block with
          port := stmtEvents h.block.params h.temps st
          hostTurns :=
            if stmtEvents h.block.params h.temps st = [] then h.block.hostTurns - 1 else h.block.hostTurns } } := by
  have hlt : h.hpc < h.prog.length := (List.getElem?_eq_some_iff.mp hst).1
  rw [hostStep, if_pos (by simp [hostGoesOn, hp, hd, hlt])]
  simp only [hostIssue, hst, hp, List.nil_append]

/-- Where the host does not go on, the block steps. -/
theorem hostStep_of_not_goesOn {h : HostRun} {t : State} (hg : hostGoesOn h = false) (hs : step h.block = .next t) :
    hostStep h = .next (hostReceive h t) := by
  rw [hostStep, if_neg (by simp [hg]), hs]

/-- While events wait at the port, the block steps. -/
theorem hostStep_block {h : HostRun} {t : State} (hp : h.block.port ≠ []) (hs : step h.block = .next t) :
    hostStep h = .next (hostReceive h t) :=
  hostStep_of_not_goesOn (by simp [hostGoesOn, hp]) hs

/-- Where a completion is due, the block steps, whatever the host's next statement. -/
theorem hostStep_due {h : HostRun} {t : State} (hd : completionDue h.block = true) (hs : step h.block = .next t) :
    hostStep h = .next (hostReceive h t) :=
  hostStep_of_not_goesOn (by simp [hostGoesOn, hd]) hs

/-- A reply fills the oldest waiting temporary. -/
theorem hostReceive_reply {h : HostRun} {t : State} {tmp : Nat} {rest : List Nat} {v : Word}
    (ha : h.awaiting = tmp :: rest) (hr : t.replies = v :: h.block.replies) :
    hostReceive h t = { h with temps := (tmp, v) :: h.temps, awaiting := rest, block := t } := by
  simp [hostReceive, ha, hr]

/-- A step with no reply fills none. -/
theorem hostReceive_silent {h : HostRun} {t : State} (hr : t.replies = h.block.replies) :
    hostReceive h t = { h with block := t } := by
  cases ha : h.awaiting <;> simp [hostReceive, ha, hr]

theorem hostRunFor_step {n : Nat} {h h' : HostRun} (hs : hostStep h = .next h') :
    hostRunFor (n + 1) h = hostRunFor n h' := by
  simp only [hostRunFor, hs]

end Sys2Proof.Machine
end

