-- ==== Sys2Proof/Laws/Ops.lean ====
section
/-! SUPPORT. What each shared operation can do, said once: the turn, an access, a read, a write, a step. -/

namespace Sys2Proof.Machine

/-! ## Who moves -/

theorem turn_engine_iff (s : State) : turn s = .engine ↔ EngineMoves s := by
  unfold turn EngineMoves
  cases hb : s.busy <;> cases hr : s.rst <;> cases hp : s.port <;> simp

theorem turn_of_not_engine {s : State} (h : ¬ EngineMoves s) :
    turn s = match s.port with
      | [] => .idle
      | e :: rest => .host e rest := by
  have h' : ¬ turn s = .engine := fun h'' => h ((turn_engine_iff s).mp h'')
  unfold turn at h' ⊢
  split
  · simp_all
  · rfl

theorem step_engine {s : State} (h : EngineMoves s) : step s = engineStep s := by
  unfold step; rw [(turn_engine_iff s).mpr h]

theorem step_host {s : State} (h : ¬ EngineMoves s) {e : PortEvent} {rest : List PortEvent}
    (hp : s.port = e :: rest) : step s = portEvent e (takeTurn rest s) := by
  unfold step; rw [turn_of_not_engine h, hp]

theorem step_idle {s : State} (h : ¬ EngineMoves s) (hp : s.port = []) : step s = .next s := by
  unfold step; rw [turn_of_not_engine h, hp]

/-- What a step that answers a next state was: a completion, a host event, or nothing. -/
theorem step_cases {s t : State} (h : step s = .next t) :
    (EngineMoves s ∧ engineStep s = .next t) ∨
    (¬ EngineMoves s ∧ ∃ e rest, s.port = e :: rest ∧ portEvent e (takeTurn rest s) = .next t) ∨
    (¬ EngineMoves s ∧ s.port = [] ∧ t = s) := by
  by_cases he : EngineMoves s
  · exact .inl ⟨he, by rwa [step_engine he] at h⟩
  · cases hp : s.port with
    | nil =>
      rw [step_idle he hp] at h
      exact .inr (.inr ⟨he, rfl, by simpa using h.symm⟩)
    | cons e rest =>
      rw [step_host he hp] at h
      exact .inr (.inl ⟨he, e, rest, rfl, h⟩)

/-! ## Accesses -/

/-- An access that answers a next state was an admitted one, and did its work at the location it reaches. -/
theorem access_next {addr size : Nat} {f : Loc → State → State} {s t : State}
    (h : access addr size f s = .next t) :
    s.rst = false ∧ s.params.Admits addr size ∧ t = f (locate (addr - s.params.base)) s := by
  unfold access at h
  split at h
  · cases h
  · split at h
    · cases h
    · split at h
      · cases h
      · cases h
        rename_i h1 h2 h3
        exact ⟨by simpa using h1, ⟨not_not.mp h2, not_not.mp h3⟩, rfl⟩

theorem access_admitted {addr size : Nat} {f : Loc → State → State} {s : State} (hr : s.rst = false)
    (ha : s.params.Admits addr size) : access addr size f s = .next (f (locate (addr - s.params.base)) s) := by
  unfold access
  rw [if_neg (by simp [hr]), if_neg (not_not.mpr ha.1), if_neg (not_not.mpr ha.2)]

/-- Every register is reached at its own offset (10_state.md R24). -/
theorem locate_regOffset (r : Reg) : locate (regOffset r) = .reg r := by cases r <;> rfl

/-- Every window word is reached at its own offset (20_memory.md R63). -/
theorem locate_windowOffset (x : Buf) {w : Nat} (h : w < 1024) : locate (windowOffset x w) = .window x w := by
  have ho : windowOffset x w = windowBase x + 4 * w := rfl
  generalize windowOffset x w = off at ho
  unfold locate
  cases x <;> simp only [windowBase] at ho
  · rw [if_neg (by omega), if_pos (by omega)]; congr 1; omega
  · rw [if_neg (by omega), if_neg (by omega), if_pos (by omega)]; congr 1; omega
  · rw [if_neg (by omega), if_neg (by omega), if_neg (by omega)]; congr 1; omega

theorem locate_reserved {off : Nat} (h1 : 0x0024 ≤ off) (h2 : off ≤ 0x0FFC) : locate off = .reserved := by
  unfold locate
  rw [if_pos (by omega)]
  split <;> first | omega | rfl

theorem regOffset_le (r : Reg) : regOffset r ≤ 0x20 ∧ regOffset r % 4 = 0 := by cases r <;> decide

theorem windowOffset_le (x : Buf) {w : Nat} (h : w < 1024) :
    windowOffset x w ≤ 0x3FFC ∧ windowOffset x w % 4 = 0 := by
  cases x <;> simp only [windowOffset, windowBase] <;> omega

theorem portEvent_read (addr size : Nat) (s : State) :
    portEvent (.read addr size) s = access addr size readLoc s := rfl

theorem portEvent_write (addr size : Nat) (v : Word) (s : State) :
    portEvent (.write addr size v) s = access addr size (writeLoc v) s := rfl

/-- An access at an aligned offset of the aperture. -/
theorem access_at {off : Nat} {f : Loc → State → State} {s : State} (hr : s.rst = false) (h1 : off ≤ 0x3FFF)
    (h2 : off % 4 = 0) : access (s.params.base + off) 4 f s = .next (f (locate off) s) := by
  rw [access_admitted hr ⟨⟨by omega, by omega⟩, rfl, by omega⟩, Nat.add_sub_cancel_left]

theorem read_reg {s : State} (hr : s.rst = false) (r : Reg) :
    portEvent (.read (regAddr s.params r) 4) s = .next (readLoc (.reg r) s) := by
  have h := regOffset_le r
  rw [portEvent_read, regAddr, access_at hr (by omega) h.2, locate_regOffset]

theorem write_reg {s : State} (hr : s.rst = false) (r : Reg) (v : Word) :
    portEvent (.write (regAddr s.params r) 4 v) s = .next (writeReg v r s) := by
  have h := regOffset_le r
  rw [portEvent_write, regAddr, access_at hr (by omega) h.2, locate_regOffset, writeLoc]

theorem read_window {s : State} (hr : s.rst = false) (x : Buf) {w : Nat} (hw : w < 1024) :
    portEvent (.read (windowAddr s.params x w) 4) s = .next (readLoc (.window x w) s) := by
  have h := windowOffset_le x hw
  rw [portEvent_read, windowAddr, access_at hr (by omega) h.2, locate_windowOffset x hw]

theorem write_window {s : State} (hr : s.rst = false) (x : Buf) {w : Nat} (hw : w < 1024) (v : Word) :
    portEvent (.write (windowAddr s.params x w) 4 v) s = .next (writeWindow v w x s) := by
  have h := windowOffset_le x hw
  rw [portEvent_write, windowAddr, access_at hr (by omega) h.2, locate_windowOffset x hw, writeLoc]

/-! ## Reads and writes -/

/-- A read changes the replies and the draw count only (10_state.md R49). -/
theorem readLoc_frame (l : Loc) (s : State) :
    readLoc l s = { s with replies := (readLoc l s).replies, draws := (readLoc l s).draws } := by
  unfold readLoc; split <;> rfl

theorem unlessBusy_busy {f : State → State} {s : State} (h : s.busy = true) : unlessBusy f s = overrun s := by
  simp [unlessBusy, h]

theorem unlessBusy_idle {f : State → State} {s : State} (h : s.busy = false) : unlessBusy f s = f s := by
  simp [unlessBusy, h]

/-- What a host write can do, at any location: nothing; an overrun; an acceptance; a write of STATUS or CTRL; or a
write of an operand while idle. -/
theorem writeLoc_cases (v : Word) (l : Loc) (s : State) :
    (writeLoc v l s = s) ∨
    (s.busy = true ∧ writeLoc v l s = overrun s) ∨
    (l = .reg .cmd ∧ s.busy = false ∧ writeLoc v l s = accept v s) ∨
    (l = .reg .status ∧ writeLoc v l s = writeStatus v s) ∨
    (l = .reg .ctrl ∧ writeLoc v l s = { s with ie := v.getLsbD 0 }) ∨
    (s.busy = false ∧ ∃ arg aLen gLen a g, a.length = s.a.length ∧ g.length = s.g.length ∧
      writeLoc v l s = { s with arg := arg, aLen := aLen, gLen := gLen, a := a, g := g }) := by
  have operand : ∀ f : State → State,
      (∃ arg aLen gLen a g, a.length = s.a.length ∧ g.length = s.g.length ∧
        f s = { s with arg := arg, aLen := aLen, gLen := gLen, a := a, g := g }) →
      (s.busy = true ∧ unlessBusy f s = overrun s) ∨
        (s.busy = false ∧ ∃ arg aLen gLen a g, a.length = s.a.length ∧ g.length = s.g.length ∧
          unlessBusy f s = { s with arg := arg, aLen := aLen, gLen := gLen, a := a, g := g }) := by
    intro f hf
    by_cases hb : s.busy = true
    · exact .inl ⟨hb, unlessBusy_busy hb⟩
    · have hb' := Bool.eq_false_of_not_eq_true hb
      exact .inr ⟨hb', by rwa [unlessBusy_idle hb']⟩
  cases l with
  | reserved => exact .inl rfl
  | reg r =>
    cases r with
    | cfg | result | yLen => exact .inl rfl
    | status => exact .inr (.inr (.inr (.inl ⟨rfl, rfl⟩)))
    | ctrl => exact .inr (.inr (.inr (.inr (.inl ⟨rfl, rfl⟩))))
    | cmd =>
      cases hb : s.busy
      · exact .inr (.inr (.inl ⟨rfl, rfl, by simp only [writeLoc, writeReg]; rw [unlessBusy_idle hb]⟩))
      · exact .inr (.inl ⟨rfl, by simp only [writeLoc, writeReg]; rw [unlessBusy_busy hb]⟩)
    | arg =>
      rcases operand (fun t => { t with arg := v }) ⟨_, _, _, _, _, rfl, rfl, rfl⟩ with h | h
      · exact .inr (.inl h)
      · exact .inr (.inr (.inr (.inr (.inr h))))
    | aLen =>
      rcases operand (fun t => { t with aLen := v }) ⟨_, _, _, _, _, rfl, rfl, rfl⟩ with h | h
      · exact .inr (.inl h)
      · exact .inr (.inr (.inr (.inr (.inr h))))
    | gLen =>
      rcases operand (fun t => { t with gLen := v }) ⟨_, _, _, _, _, rfl, rfl, rfl⟩ with h | h
      · exact .inr (.inl h)
      · exact .inr (.inr (.inr (.inr (.inr h))))
  | window x w =>
    cases x with
    | y => exact .inl rfl
    | a =>
      rcases operand (fun t => { t with a := setWindowWord t.a w v })
          ⟨_, _, _, _, _, length_setWindowWord _ _ _, rfl, rfl⟩ with h | h
      · exact .inr (.inl h)
      · exact .inr (.inr (.inr (.inr (.inr h))))
    | g =>
      rcases operand (fun t => { t with g := setWindowWord t.g w v })
          ⟨_, _, _, _, _, rfl, length_setWindowWord _ _ _, rfl⟩ with h | h
      · exact .inr (.inl h)
      · exact .inr (.inr (.inr (.inr (.inr h))))

/-! ## Resets -/

@[simp] theorem length_drawnBuffer (n : Nat) (x : Buf) (cap : Nat) : (drawnBuffer n x cap).length = cap := by
  simp [drawnBuffer]

theorem bitAt_drawnBuffer {n : Nat} {x : Buf} {cap j : Nat} (h : j < cap) :
    bitAt (drawnBuffer n x cap) j = Config.resetBit n x j := by
  rw [bitAt_eq_getElem (by simpa using h)]
  simp [drawnBuffer]

/-- The reset operation leaves the reset state (10_state.md R38). -/
theorem assertReset_fields (s : State) :
    RegistersReset (assertReset s) ∧ Memory.wf (assertReset s) ∧ (assertReset s).rst = true ∧
      (assertReset s).params = s.params ∧ (assertReset s).port = s.port ∧ (assertReset s).replies = s.replies :=
  ⟨⟨rfl, rfl, rfl, rfl, rfl, rfl, rfl, rfl, rfl, rfl, rfl⟩,
    ⟨length_drawnBuffer .., length_drawnBuffer .., length_drawnBuffer ..⟩, rfl, rfl, rfl, rfl⟩

/-! ## What a host event can do -/

/-- What one event that answers a next state did: a read, a write at a location, or a change of `rst`. -/
theorem portEvent_cases {e : PortEvent} {s t : State} (h : portEvent e s = .next t) :
    (∃ addr, e = .read addr 4 ∧ s.rst = false ∧ s.params.Admits addr 4 ∧
      t = readLoc (locate (addr - s.params.base)) s) ∨
    (∃ addr v, e = .write addr 4 v ∧ s.rst = false ∧ s.params.Admits addr 4 ∧
      t = writeLoc v (locate (addr - s.params.base)) s) ∨
    (∃ level, e = .rst level ∧ t = driveRst level s) := by
  cases e with
  | read addr size =>
    obtain ⟨hr, ha, ht⟩ := access_next h
    obtain rfl : size = 4 := ha.2.1
    exact .inl ⟨addr, rfl, hr, ha, ht⟩
  | write addr size v =>
    obtain ⟨hr, ha, ht⟩ := access_next h
    obtain rfl : size = 4 := ha.2.1
    exact .inr (.inl ⟨addr, v, rfl, hr, ha, ht⟩)
  | rst level => exact .inr (.inr ⟨level, rfl, by simpa [portEvent] using h.symm⟩)

/-! ## Every memory operation keeps the buffers' form -/

theorem putY_memory {bits : Bits} {s : State} (hb : bits.length ≤ s.params.lMax) (h : Memory.wf s) :
    Memory.wf (putY bits s) := ⟨h.1, h.2.1, length_zeroFill hb⟩

theorem flipA_memory {j : Nat} {s : State} (h : Memory.wf s) : Memory.wf (flipA j s) :=
  ⟨by simpa using h.1, h.2.1, h.2.2⟩

theorem writeLoc_memory {v : Word} {l : Loc} {s : State} (h : Memory.wf s) : Memory.wf (writeLoc v l s) := by
  obtain ⟨ha, hg, hy⟩ := h
  rcases writeLoc_cases v l s with e | ⟨-, e⟩ | ⟨-, -, e⟩ | ⟨-, e⟩ | ⟨-, e⟩ | ⟨-, _, _, _, a, g, la, lg, e⟩ <;> rw [e]
  case inr.inr.inr.inr.inr => exact ⟨la.trans ha, lg.trans hg, hy⟩
  all_goals exact ⟨ha, hg, hy⟩

theorem readLoc_memory {l : Loc} {s : State} (h : Memory.wf s) : Memory.wf (readLoc l s) := by
  rw [readLoc_frame]; exact h

theorem reset_memory : Memory.wf State.reset :=
  ⟨length_drawnBuffer .., length_drawnBuffer .., length_drawnBuffer ..⟩

/-! ## The fields of CFG -/

theorem cfgField_of_ne {cap : Nat} (h : cap ≠ 32768) : cfgField cap = cap % 2 ^ 16 := by rw [cfgField, if_neg h]

/-- 0 stands for the capacity 32768 (log 19). -/
theorem cfgField_full : cfgField 32768 = 0 := rfl

theorem cfgField_lt (cap : Nat) : cfgField cap < 2 ^ 16 := by
  unfold cfgField
  split
  · decide
  · exact Nat.mod_lt _ (by decide)

theorem toNat_cfgWord (p : Params) : (cfgWord p).toNat = cfgField p.lMax + 2 ^ 16 * cfgField p.gMax := by
  have h1 := cfgField_lt p.lMax
  have h2 := cfgField_lt p.gMax
  rw [cfgWord, BitVec.toNat_ofNat, Nat.mod_eq_of_lt (by omega)]

end Sys2Proof.Machine
end

