-- ==== Sys2Proof/Laws/PerInstr.lean ====
section
/-! SUPPORT. What holds of every command as syntax, one lemma per constructor. -/

namespace Sys2Proof.Laws

/-- The fields of a command's word are those of 30_encoding.md R90 and R93: OP selects the command, RSV is 0, and the
word decodes to the command it encodes. -/
def EncodingFields.Statement (i : Instr) : Prop :=
  i.wf = true ∧ opField (encode i) = i.op ∧ rsvField (encode i) = 0 ∧ decode (encode i) = .command i

theorem EncodingFields.crcRem : EncodingFields.Statement .crcRem := ⟨rfl, by decide, by decide, by decide⟩

theorem EncodingFields.crcVerify : EncodingFields.Statement .crcVerify := ⟨rfl, by decide, by decide, by decide⟩

theorem EncodingFields.hamRbits : EncodingFields.Statement .hamRbits := ⟨rfl, by decide, by decide, by decide⟩

theorem EncodingFields.hamEnc : EncodingFields.Statement .hamEnc := ⟨rfl, by decide, by decide, by decide⟩

theorem EncodingFields.hamDec : EncodingFields.Statement .hamDec := ⟨rfl, by decide, by decide, by decide⟩

end Sys2Proof.Laws
end

