-- ==== Sys2Proof/Tests/Slice0.lean ====
section
/-! SUPPORT. The model's own tests: ill-formed terms, words written out from the encoding, one step of each command on
the vectors of 95_test_vectors.md, and for every statement with hypotheses a state that meets them. -/

namespace Sys2Proof.Tests

open Sys2Proof Sys2Proof.Machine

/-! ## Helpers -/

/-- A string from its characters (00_scope.md R9): the first is index 0. -/
def bits (l : List Nat) : Bits := l.map (· == 1)

/-- The reference configuration of 00_scope.md R7 at BASE 0x8000. -/
def cfg : Params := { lMax := 64, gMax := 33, base := 0x8000 }

/-- An idle block with these operands and results left by an earlier command; `done` is still set. -/
def idle (a g : Bits) (aLen gLen arg : Word) : State where
  params := cfg
  rst := false
  busy := false
  done := true
  ovr := false
  err := .noError
  ie := true
  cmd := 3
  result := 6
  arg := arg
  aLen := aLen
  gLen := gLen
  yLen := 3
  a := zeroFill 64 a
  g := zeroFill 33 g
  y := zeroFill 64 (bits [1, 0, 1])
  port := []
  replies := []
  hostTurns := 0
  draws := 1

/-- The same block with the command `c` accepted (10_state.md R41) and `turns` host events before its completion. -/
def running (c : Word) (turns : Nat) (s : State) : State :=
  { s with cmd := c, done := false, busy := true, hostTurns := turns }

/-- What a step gives, where it gives a next state. -/
def after : Host.Outcome State Fault Refusal → Option State
  | .next t => some t
  | .fault _ => none
  | .refused _ => none

/-- One step, seen through `f`. -/
def see {α : Type} (f : State → α) (s : State) : Option α := (after (step s)).map f

/-- What a step refuses with. -/
def refusal : Host.Outcome State Fault Refusal → Option Refusal
  | .next _ => none
  | .fault _ => none
  | .refused r => some r

/-- Data `1`, generator `10011` (95_test_vectors.md V-CRC-2). -/
def small : State := idle (bits [1]) (bits [1, 0, 0, 1, 1]) 1 5 4

/-- A received `11` under the generator `11` (V-CRC-14). -/
def pass : State := idle (bits [1, 1]) (bits [1, 1]) 2 2 0

/-- The packet of `1` with its position 1 flipped: `011`, `r = 2` (V-HE-3). -/
def oneFlip : State := idle (bits [0, 1, 1]) [] 3 0 2

/-- Positions 7 and 9 of the packet of `101100011` flipped (V-HD-6). -/
def twoFlips : State := idle (bits [1, 1, 1, 0, 0, 1, 0, 0, 1, 0, 0, 1, 1]) [] 13 0 4

/-! ## Ill-formed terms are refused -/

theorem test_params_lMax_too_small : ¬ Params.Legal { lMax := 1, gMax := 1, base := 0 } := by decide

theorem test_params_lMax_too_large : ¬ Params.Legal { lMax := 32769, gMax := 33, base := 0 } := by decide

theorem test_params_gMax_above_lMax : ¬ Params.Legal { lMax := 64, gMax := 65, base := 0 } := by decide

theorem test_params_base_not_a_slot : ¬ Params.Legal { lMax := 64, gMax := 33, base := 0x2000 } := by decide

theorem test_params_reference_legal : cfg.Legal := by decide

theorem test_access_halfword_refused : (PortEvent.read 0x8000 2).wf cfg false = false := by decide

theorem test_access_unaligned_refused : (PortEvent.read 0x8002 4).wf cfg false = false := by decide

theorem test_access_below_aperture_refused : (PortEvent.write 0x7FFC 4 0).wf cfg false = false := by decide

theorem test_access_above_aperture_refused : (PortEvent.write 0xC000 4 0).wf cfg false = false := by decide

theorem test_access_during_reset_refused : (PortEvent.read 0x8000 4).wf cfg true = false := by decide

theorem test_access_last_word_admitted : (PortEvent.read 0xBFFC 4).wf cfg false = true := by decide

theorem test_write_of_y_window_refused : (Stmt.wrw .y 0 (.lit 0)).wf = false := by decide

theorem test_window_word_1024_refused : (Stmt.rdw .a 1024 0).wf = false := by decide

/-! ## Decoding: words written out bit by bit from 30_encoding.md R90 and R93 -/

theorem test_decode_crcRem : decode 0b0000000000000000000000000000_0001 = .command .crcRem := by decide

theorem test_decode_crcVerify : decode 0b0000000000000000000000000000_0010 = .command .crcVerify := by decide

theorem test_decode_hamRbits : decode 0b0000000000000000000000000000_0011 = .command .hamRbits := by decide

theorem test_decode_hamEnc : decode 0b0000000000000000000000000000_0100 = .command .hamEnc := by decide

theorem test_decode_hamDec : decode 0b0000000000000000000000000000_0101 = .command .hamDec := by decide

/-- V-CMD-1, V-CMD-2, V-CMD-3: the reserved OP values. -/
theorem test_decode_reserved_op :
    decode 0x00000000 = .illegal .reservedOp ∧ decode 0x00000006 = .illegal .reservedOp ∧
      decode 0x0000000F = .illegal .reservedOp := by decide

/-- V-CMD-4, V-CMD-5: RSV is not 0, at its lowest and its highest bit. -/
theorem test_decode_reserved_bits :
    decode 0x00000011 = .illegal .reservedBits ∧ decode 0x80000005 = .illegal .reservedBits := by decide

/-- The lanes of 0x00000005, lowest address first (20_memory.md R64). -/
theorem test_decode_lanes : decodeLanes [0x05, 0x00, 0x00, 0x00] = .command .hamDec := by decide

theorem test_decodeTableWord : decodeTableWord 32 0x00000004 = some .hamEnc := by decide

theorem test_decodeTableWord_reserved : decodeTableWord 32 0x00000011 = none := by decide

/-- The placed word runs at once: ARG is 0 after reset, and `rbits(0) = 0` (41_hamming.md R150). -/
theorem test_fetched_word_runs :
    see (fun t => (t.cmd, t.result, t.done, t.busy)) (State.reset.withFetchWord 32 3) =
      some (3, 0, true, false) := by decide

/-! ## One step of each command -/

/-- V-CRC-2. -/
theorem test_crcRem :
    see (fun t => (prefixBits 4 t.y, t.yLen, statusWord t, t.result)) (running 1 0 small) =
      some (bits [0, 0, 1, 1], 4, 0x00000002, 6) := by decide

/-- V-CRC-E5: a length error wins over the generator's leading 0. -/
theorem test_crcRem_priority :
    see (fun t => (statusWord t, t.yLen)) (running 1 0 (idle [] (bits [0, 0, 1, 1]) 0 4 0)) =
      some (0x00000202, 3) := by decide

/-- V-CRC-15. -/
theorem test_crcVerify_mismatch :
    see (fun t => (t.result, prefixBits 2 t.y, t.yLen, statusWord t))
        (running 2 0 (idle (bits [1, 0]) (bits [1, 1]) 2 2 0)) =
      some (0, bits [1, 0], 1, 0x00000002) := by decide

/-- V-CRC-16: the received string is shorter than the generator. -/
theorem test_crcVerify_too_short :
    see (fun t => (t.result, statusWord t))
        (running 2 0 (idle (bits [1, 0, 0, 1]) (bits [1, 0, 0, 1, 1]) 4 5 0)) =
      some (6, 0x00000202) := by decide

/-- 95_test_vectors.md section 4, ARG = 27: one more than the last value that needs 5. -/
theorem test_hamRbits :
    see (fun t => (t.result, statusWord t)) (running 3 0 (idle [] [] 0 0 27)) = some (6, 0x00000002) := by decide

/-- 95_test_vectors.md section 4, ARG = 4294967295. -/
theorem test_hamRbits_largest :
    see (fun t => t.result) (running 3 0 (idle [] [] 0 0 0xFFFFFFFF)) = some 33 := by decide

/-- V-HE-4. -/
theorem test_hamEnc :
    see (fun t => (prefixBits 8 t.y, t.yLen, t.result)) (running 4 0 (idle (bits [1, 0, 1, 1]) [] 4 0 0)) =
      some (bits [0, 1, 1, 0, 0, 1, 1, 0], 7, 3) := by decide

/-- V-HE-10: 58 + 7 > 64. -/
theorem test_hamEnc_bad_length :
    see (fun t => (statusWord t, t.result, t.yLen)) (running 4 0 (idle [] [] 58 0 0)) =
      some (0x00000402, 6, 3) := by decide

/-- V-HD-9: `r` too small, a wrong position is corrected. -/
theorem test_hamDec_wrong_r :
    see (fun t => (t.result, prefixBits 7 t.a, statusWord t))
        (running 5 0 (idle (bits [0, 1, 1, 0, 0, 1, 0]) [] 7 0 2)) =
      some (3, bits [0, 1, 0, 0, 0, 1, 0], 0x00000002) := by decide

/-- V-HD-6: `e = n + 1` is reported and A is left alone. -/
theorem test_hamDec_uncorrectable :
    see (fun t => (t.result, t.a == twoFlips.a, statusWord t)) (running 5 0 twoFlips) =
      some (14, true, 0x00000302) := by decide

/-- V-CMD-4: accepted and completed with ILLEGAL_COMMAND; CMD keeps the word. -/
theorem test_illegal_command :
    see (fun t => (statusWord t, t.cmd, t.result)) (running 0x00000011 0 small) =
      some (0x00000502, 0x00000011, 6) := by decide

/-! ## The register port -/

/-- V-REG-6: with G_MAX = 33, bit 0 of word 1 is the last bit of G. -/
theorem test_window_write_beyond_capacity :
    see (fun t => (windowWord t.g 1, t.g.length)) { small with port := [.write 0xA004 4 0xFFFFFFFF] } =
      some (1, 33) := by decide

/-- V-REG-4: the acknowledgment drops `irq`. -/
theorem test_acknowledge :
    irq small = true ∧
      see (fun t => (irq t, t.done)) { small with port := [.write 0x800C 4 0x00000002] } = some (false, false) := by
  decide

/-- 10_state.md R43: an operand write while busy is lost and sets OVR. -/
theorem test_operand_write_while_busy :
    see (fun t => (t.aLen, t.ovr, t.busy)) { running 1 1 small with port := [.write 0x8018 4 9] } =
      some (1, true, true) := by decide

/-- 10_state.md R25, D35: 0 stands for 32768; the capacity below it reads as itself. -/
theorem test_cfg_largest :
    cfgWord { lMax := 32768, gMax := 32767, base := 0 } = 0x7FFF0000 ∧
      cfgWord { lMax := 32768, gMax := 32768, base := 0 } = 0x00000000 := by decide

/-- V-REG-1. -/
theorem test_read_cfg :
    see (fun t => t.replies) { small with port := [.read 0x8000 4] } = some [0x00210040] := by decide

/-- 70_reset_and_hazards.md R210. -/
theorem test_access_during_reset :
    refusal (step { small with rst := true, port := [.read 0x8000 4] }) = some .accessDuringReset := by decide

/-- `ldbits A, "1101011011"` is `W 0x0018, 0x0000000A` then `W 0x1000, 0x0000036B` (30_encoding.md R99). -/
theorem test_ldbits_events :
    programEvents cfg [] (ldbitsStmts .a (bits [1, 1, 0, 1, 0, 1, 1, 0, 1, 1])) =
      [.write 0x8018 4 0x0000000A, .write 0x9000 4 0x0000036B] := by decide

/-- P1, statement 8: the host forms `0x36B OR (0x7 << 10)` of the word it has read into temporary 6. -/
theorem test_computed_write_event :
    programEvents cfg [(6, 0x7)] [.wrw .a 0 (.add (.lit 0x36B) (.shl (.temp 6) 10))] =
      [.write 0x9000 4 0x00001F6B] := by decide

/-- P1, statement 5: `rdbits Y` is `R 0x0020`, then `R 0x3000` for a length of 4. -/
theorem test_rdbits_events :
    programEvents cfg [(7, 4)] (rdbitsStmts .y 7) = [.read 0x8020 4, .read 0xB000 4] := by decide

/-! ## Witnesses: states and operands that meet a statement's hypotheses, each clause at a boundary -/

/-- An idle block with the event `e` waiting. -/
def withEvent (e : PortEvent) (s : State) : State := { s with port := [e] }

theorem inv_small : Inv small where
  legal := by decide
  memory := by decide
  yLen_le := by decide
  result_le := by decide
  busy_quiet := by decide
  rst_holds := by decide

theorem inv_running : Inv (running 1 1 small) where
  legal := by decide
  memory := by decide
  yLen_le := by decide
  result_le := by decide
  busy_quiet := by decide
  rst_holds := by decide

theorem inv_oneFlip : Inv (running 5 0 oneFlip) where
  legal := by decide
  memory := by decide
  yLen_le := by decide
  result_le := by decide
  busy_quiet := by decide
  rst_holds := by decide

theorem witness_DecodeInvertsEncode : Instr.wf .crcRem = true ∧ Instr.wf .hamDec = true := by decide

theorem witness_DecodedWordIsTheEncodedWord :
    decode 0x00000001 = .command .crcRem ∧ decode 0x00000005 = .command .hamDec := by decide

theorem witness_IllegalWordsAreTheReservedOnes :
    decode 0x00000010 = .illegal .reservedBits ∧ (0x00000010 : Word).toNat / 16 ≠ 0 ∧
      (0x00000006 : Word).toNat % 16 = 6 ∧ decode 0x00000006 = .illegal .reservedOp ∧
      (0x00000000 : Word).toNat % 16 = 0 ∧ decode 0x00000000 = .illegal .reservedOp := by decide

theorem witness_LanesCarryTheWord :
    ([] : List Byte).length ≠ 4 ∧ ([0x01, 0x00, 0x00, 0x00, 0x00] : List Byte).length ≠ 4 := by decide

theorem witness_StepRunsTheLatchedCommand :
    EngineMoves (running 1 0 small) ∧ EngineMoves (running 1 9 small) ∧
      decode (running 1 0 small).cmd = .command .crcRem := by decide

theorem witness_IllegalCommandChangesOnlyStatus :
    EngineMoves (running 0x80000005 0 small) ∧
      decode (running 0x80000005 0 small).cmd = .illegal .reservedBits := by decide

theorem witness_OldestEventTakesEffectNext :
    (¬ EngineMoves small ∧ small.port = []) ∧
      ¬ EngineMoves (running 1 1 (withEvent (.rst true) small)) ∧
      (running 1 1 (withEvent (.rst true) small)).port = .rst true :: [] := by decide

theorem witness_CommandWriteAcceptedOrDiscarded :
    (small.rst = false ∧ small.busy = false) ∧ (running 1 0 small).rst = false ∧ (running 1 0 small).busy = true := by
  decide

theorem witness_OperandWritesStoreOrAreDiscarded :
    (small.rst = false ∧ small.busy = false) ∧ (running 1 0 small).rst = false ∧
      (running 1 0 small).busy = true ∧ 0 < 1024 ∧ 1023 < 1024 := by decide

theorem witness_WindowPacking :
    Inv small ∧ small.rst = false ∧ small.busy = false ∧ 1 < 1024 ∧ Buf.g ≠ .y ∧ 31 < 32 ∧
      32 < (bufferOf small .g).length ∧ ¬ 32 * 1 + 1 < (bufferOf small .g).length :=
  ⟨inv_small, by decide⟩

theorem witness_ReadsReturnStoredOrUnspecified :
    (running 1 0 small).rst = false ∧ (running 1 0 small).busy = true ∧ small.rst = false ∧ small.busy = false ∧
      (0x0000, cfgWord cfg) ∈ [(0x0000, cfgWord cfg)] ∧ (0x0020, small.yLen) ∈ [(0x0010, small.result), (0x0020, small.yLen)] ∧
      (0x3000, small.y) ∈ [(0x1000, small.a), (0x3000, small.y)] ∧ 0 < 1024 ∧ 1023 < 1024 := by decide

theorem witness_StatusAndControlWrites : small.rst = false ∧ (running 1 0 small).rst = false := by decide

theorem witness_ReadOnlyAndReservedIgnoreWrites :
    small.rst = false ∧ 1023 < 1024 ∧ (0x0024 ≤ 0x0024 ∧ 0x0024 ≤ 0x0FFC ∧ 0x0024 % 4 = 0) ∧ 0x0024 ≤ 0x0FFC ∧
      0x0FFC % 4 = 0 := by decide

theorem witness_IrqFollowsEnableAndDone :
    (small.rst = false ∧ small.busy = false ∧ ∃ t, portEvent (.write (regAddr cfg .cmd) 4 1) small = .next t) ∧
      ((2 : Word).getLsbD 1 = true ∧ ∃ t, portEvent (.write (regAddr cfg .status) 4 2) small = .next t) ∧
      ((0 : Word).getLsbD 0 = false ∧ ∃ t, portEvent (.write (regAddr cfg .ctrl) 4 0) small = .next t) ∧
      (∃ t, portEvent (.rst true) small = .next t) ∧ (∃ t, exec .hamRbits (running 3 0 small) = .next t) ∧
      EngineMoves (running 0x00000011 0 small) ∧ ∃ t, step (running 0x00000011 0 small) = .next t :=
  ⟨⟨rfl, rfl, _, rfl⟩, ⟨by decide, _, rfl⟩, ⟨by decide, _, rfl⟩, ⟨_, rfl⟩, ⟨_, rfl⟩, by decide, _, rfl⟩

theorem witness_AssertedResetGivesResetState : (running 1 1 small).rst = false ∧ small.rst = false := by decide

/-- One access for each clause, at the edges of the aperture. -/
theorem witness_OnlyAdmittedAccessesTakeEffect :
    ({ small with rst := true } : State).rst = true ∧ small.rst = false ∧
      ¬ (cfg.base ≤ 0x7FFF ∧ 0x7FFF ≤ cfg.base + 0x3FFF) ∧ ¬ (cfg.base ≤ 0xC000 ∧ 0xC000 ≤ cfg.base + 0x3FFF) ∧
      (cfg.base ≤ 0xBFFF ∧ 0xBFFF ≤ cfg.base + 0x3FFF ∧ ¬ (4 = 4 ∧ (0xBFFF - cfg.base) % 4 = 0)) ∧
      cfg.base ≤ 0xBFFC ∧ 0xBFFC ≤ cfg.base + 0x3FFF ∧ (0xBFFC - cfg.base) % 4 = 0 := by decide

/-- The smallest lengths, and the largest (V-CRC-9's). -/
theorem witness_CrcRemCompletes :
    (let s := running 1 0 (idle (bits [1]) (bits [1, 1]) 1 2 0)
     1 ≤ lenA s ∧ lenA s ≤ s.params.lMax ∧ 2 ≤ lenG s ∧ lenG s ≤ s.params.gMax ∧ bitAt s.g 0 = true) ∧
    let s := running 1 0 (idle (bits [1]) (bits [1, 1]) 64 33 0)
    1 ≤ lenA s ∧ lenA s ≤ s.params.lMax ∧ 2 ≤ lenG s ∧ lenG s ≤ s.params.gMax ∧ bitAt s.g 0 = true := by decide

/-- V-CRC-E6, V-CRC-E7, V-CRC-E1, V-CRC-E2 and V-CRC-E4. -/
theorem witness_CrcRemErrors :
    64 < lenA (idle [] (bits [1]) 65 5 0) ∧ 33 < lenG (idle [] (bits [1]) 4 34 0) ∧
      (lenA (idle [] (bits [1]) 0 5 0) < 1 ∧ lenG (idle [] (bits [1]) 0 5 0) ≤ 33) ∧
      (lenG (idle [] (bits [1]) 4 1 0) < 2 ∧ lenA (idle [] (bits [1]) 4 1 0) ≤ 64) ∧
      let s := idle (bits [1]) (bits [0, 0, 1, 1]) 4 4 0
      lenA s ≤ s.params.lMax ∧ lenG s ≤ s.params.gMax ∧ 1 ≤ lenA s ∧ 2 ≤ lenG s ∧ bitAt s.g 0 = false := by decide

/-- V-CRC-12's lengths (`n = g`), and the largest. -/
theorem witness_CrcVerifyCompletes :
    (let s := running 2 0 (idle (bits [1, 0, 0, 1, 1]) (bits [1, 0, 0, 1, 1]) 5 5 0)
     lenA s ≤ s.params.lMax ∧ 2 ≤ lenG s ∧ lenG s ≤ s.params.gMax ∧ lenG s ≤ lenA s ∧ bitAt s.g 0 = true) ∧
    let s := running 2 0 (idle (bits [1]) (bits [1, 1]) 64 33 0)
    lenA s ≤ s.params.lMax ∧ 2 ≤ lenG s ∧ lenG s ≤ s.params.gMax ∧ lenG s ≤ lenA s ∧ bitAt s.g 0 = true := by decide

/-- Lengths past the capacities, `A_LEN` one below `G_LEN` (V-CRC-16), `G_LEN = 1`, and a leading 0. -/
theorem witness_CrcVerifyErrors :
    64 < lenA (idle [] (bits [1]) 65 5 0) ∧ 33 < lenG (idle [] (bits [1]) 64 34 0) ∧
      lenA (idle [] (bits [1]) 4 5 0) < lenG (idle [] (bits [1]) 4 5 0) ∧
      lenG (idle [] (bits [1]) 4 1 0) < 2 ∧
      let s := idle (bits [1]) (bits [0, 1]) 2 2 0
      lenA s ≤ s.params.lMax ∧ lenG s ≤ s.params.gMax ∧ 2 ≤ lenG s ∧ lenG s ≤ lenA s ∧ bitAt s.g 0 = false := by decide

/-- The empty data, and the largest data that fits (V-HE-9: 57 + 6 = 63). -/
theorem witness_HamEncCompletes :
    (LeastRedundancy (lenA (idle [] [] 0 0 0)) 0 ∧ lenA (idle [] [] 0 0 0) + 0 ≤ 64) ∧
      LeastRedundancy (lenA (idle [] [] 57 0 0)) 6 ∧ lenA (idle [] [] 57 0 0) + 6 ≤ 64 := by decide

/-- V-HD-1, V-HD-12's kind (a flip at position 1) and V-HD-6 (`e = n + 1`). -/
theorem witness_HamDecCompletes :
    (let s := idle (bits [1, 1, 1]) [] 3 0 2
     lenA s ≤ s.params.lMax ∧ 0 = syndromeOver (prefixBits (lenA s) s.a) (lenA s) s.arg.toNat) ∧
    (lenA oneFlip ≤ oneFlip.params.lMax ∧
      1 = syndromeOver (prefixBits (lenA oneFlip) oneFlip.a) (lenA oneFlip) oneFlip.arg.toNat ∧ 1 ≤ lenA oneFlip) ∧
    14 = syndromeOver (prefixBits (lenA twoFlips) twoFlips.a) (lenA twoFlips) twoFlips.arg.toNat ∧
      lenA twoFlips < 14 ∧ lenA twoFlips ≤ twoFlips.params.lMax := by decide

/-- V-HD-16 and V-HE-10. -/
theorem witness_HammingCapacityErrors :
    64 < lenA (idle [] [] 65 0 0) ∧ LeastRedundancy (lenA (idle [] [] 58 0 0)) 7 ∧
      64 < lenA (idle [] [] 58 0 0) + 7 := by decide

theorem witness_StringCommandsFrame :
    cfg.Legal ∧ (∃ t, exec .crcRem (running 1 0 small) = .next t ∧ t.err = .noError) ∧
      ∃ t, exec .crcVerify (running 2 0 (idle [] [] 0 1 0)) = .next t ∧ t.err = .inputTooShort :=
  ⟨by decide, ⟨_, rfl, rfl⟩, _, rfl, rfl⟩

theorem witness_HamRbitsFrame : ∃ t, exec .hamRbits (running 3 0 small) = .next t := ⟨_, rfl⟩

/-- A correction changes bit 0 of A; an over-long packet is BAD_LENGTH. -/
theorem witness_HamDecFrame :
    (∃ t, exec .hamDec (running 5 0 oneFlip) = .next t ∧ bitAt t.a 0 ≠ bitAt oneFlip.a 0 ∧ t.err ≠ .badLength) ∧
      ∃ t, exec .hamDec (running 5 0 (idle [] [] 65 0 0)) = .next t ∧ t.err = .badLength :=
  ⟨⟨_, rfl, by decide, by decide⟩, _, rfl, rfl⟩

theorem witness_ErrorsLeaveOnlyTheNamedState :
    (EngineMoves (running 5 0 twoFlips) ∧
      ∃ t, step (running 5 0 twoFlips) = .next t ∧ t.err = .uncorrectableSyndrome) ∧
      EngineMoves (running 0 0 small) ∧ ∃ t, step (running 0 0 small) = .next t ∧ t.err = .illegalCommand :=
  ⟨⟨by decide, _, rfl, rfl⟩, by decide, _, rfl, rfl⟩

theorem witness_EveryCommandCompletes : EngineMoves (running 4 0 small) ∧ EngineMoves (running 0 0 small) := by decide

/-- Two states that differ in A from `A_LEN` on, in Y and in RESULT. -/
theorem witness_OutcomeDependsOnOperandsOnly :
    let s := small
    let t := { small with a := zeroFill 64 (bits [1, 1, 1]), y := zeroFill 64 [], result := 0 }
    Inv s ∧ Inv t ∧ s.params = t.params ∧ s.aLen = t.aLen ∧ s.gLen = t.gLen ∧ s.arg = t.arg ∧
      (∀ j < lenA s, bitAt s.a j = bitAt t.a j) ∧ (∀ j < lenG s, bitAt s.g j = bitAt t.g j) ∧ s ≠ t ∧
      (∃ s', exec .crcRem s = .next s' ∧ s'.err = .noError) ∧ ∃ t', exec .crcRem t = .next t' :=
  ⟨inv_small,
    { legal := by decide, memory := by decide, yLen_le := by decide, result_le := by decide
      busy_quiet := by decide, rst_holds := by decide },
    rfl, rfl, rfl, rfl, by decide, by decide, by decide, ⟨_, rfl, rfl⟩, _, rfl⟩

theorem witness_CrcDividerIsPolynomialRemainder :
    (bitAt (bits [1]) 0 = true ∧ (bits [1]).length ≤ (bits [0]).length) ∧ bitAt (bits [1, 0, 1, 1]) 0 = true ∧
      (bits [1, 0, 1, 1]).length ≤ (bits [1, 0, 0, 0, 0, 0, 0]).length := by decide

theorem witness_CrcDividerIsLinear : (bits [1, 0, 1]).length = (bits [0, 1, 1]).length := by decide

theorem witness_DividerStepsClearLeadingBits : bitAt (bits [1, 0, 1, 1]) 0 = true ∧ 0 < 1 := by decide

/-- The codeword of `1` under `11` is `11` (V-CRC-5, V-CRC-14). -/
theorem witness_CrcRoundTrip :
    1 ≤ (bits [1]).length ∧ 2 ≤ (bits [1, 1]).length ∧ bitAt (bits [1, 1]) 0 = true ∧
      (bits [1, 1]).length ≤ pass.params.gMax ∧
      (bits [1]).length + ((bits [1, 1]).length - 1) ≤ pass.params.lMax ∧
      lenA pass = (bits [1]).length + ((bits [1, 1]).length - 1) ∧ lenG pass = (bits [1, 1]).length ∧
      prefixBits (lenA pass) pass.a = codeword (bits [1]) (bits [1, 1]) ∧
      prefixBits (lenG pass) pass.g = bits [1, 1] := by decide

/-- V-CRC-20 and V-CRC-23: the one-term generator `10` and the codeword `1010`, flipped in the data and in the check
bit; and V-CRC-15: the generator `11`. -/
theorem witness_CrcSingleBitDetection :
    (let s := idle (bits [0, 0, 1, 0]) (bits [1, 0]) 4 2 0
     lenA s = 3 + (2 - 1) ∧ lenG s = 2 ∧ 0 < lenA s ∧
       prefixBits (lenA s) s.a = flipBit (codeword (bits [1, 0, 1]) (bits [1, 0])) 0 ∧
       prefixBits (lenG s) s.g = bits [1, 0] ∧ (bits [1, 0]).count true = 1) ∧
    (let s := idle (bits [1, 0, 1, 1]) (bits [1, 0]) 4 2 0
     lenA s = 3 + (2 - 1) ∧ 3 < lenA s ∧
       prefixBits (lenA s) s.a = flipBit (codeword (bits [1, 0, 1]) (bits [1, 0])) 3) ∧
    let s := idle (bits [1, 0]) (bits [1, 1]) 2 2 0
    1 ≤ (bits [1]).length ∧ bitAt (bits [1, 1]) 0 = true ∧ (bits [1, 1]).length ≤ s.params.gMax ∧
      lenA s = (bits [1]).length + ((bits [1, 1]).length - 1) ∧ lenG s = (bits [1, 1]).length ∧ 1 < lenA s ∧
      (bits [1]).length + ((bits [1, 1]).length - 1) ≤ s.params.lMax ∧
      prefixBits (lenA s) s.a = flipBit (codeword (bits [1]) (bits [1, 1])) 1 ∧
      prefixBits (lenG s) s.g = bits [1, 1] ∧ 2 ≤ (bits [1, 1]).count true := by decide

theorem witness_ParityPositionsOfAPacket : 2 = rbits 1 ∧ 3 = 1 + 2 ∧ 1 ≤ 2 ∧ 4 = rbits 11 ∧ 15 = 11 + 4 := by decide

theorem witness_PacketParityIsEven :
    3 = (bits [1]).length + rbits (bits [1]).length ∧ 0 < rbits (bits [1]).length ∧
      1 < rbits (bits [1]).length := by decide

/-- The packet of `1` is `111` (V-HE-3). -/
theorem witness_CleanPacketDecodesToZero :
    let s := idle (bits [1, 1, 1]) [] 3 0 2
    (bits [1]).length + rbits (bits [1]).length ≤ s.params.lMax ∧
      lenA s = (bits [1]).length + rbits (bits [1]).length ∧ s.arg.toNat = rbits (bits [1]).length ∧
      prefixBits (lenA s) s.a = hamPacket (bits [1]) := by decide

theorem witness_SingleErrorIsCorrected :
    Memory.wf oneFlip ∧ (bits [1]).length + rbits (bits [1]).length ≤ oneFlip.params.lMax ∧
      lenA oneFlip = (bits [1]).length + rbits (bits [1]).length ∧ oneFlip.arg.toNat = rbits (bits [1]).length ∧
      1 ≤ 1 ∧ 1 ≤ lenA oneFlip ∧ prefixBits (lenA oneFlip) oneFlip.a = flipBit (hamPacket (bits [1])) (1 - 1) := by
  decide

/-- Positions 7 and 9 give 14, past the packet (V-HD-6); positions 1 and 2 of `111` give 3, inside it. -/
theorem witness_DoubleErrorOutcomes :
    (let d := bits [1, 0, 1, 1, 0, 0, 0, 1, 1]
     d.length + rbits d.length ≤ 64 ∧ lenA twoFlips = d.length + rbits d.length ∧
       twoFlips.arg.toNat = rbits d.length ∧ 7 ≤ lenA twoFlips ∧ 9 ≤ lenA twoFlips ∧ 14 = 7 ^^^ 9 ∧
       lenA twoFlips < 14 ∧
       prefixBits (lenA twoFlips) twoFlips.a = flipBit (flipBit (hamPacket d) (7 - 1)) (9 - 1)) ∧
    let s := idle (bits [0, 0, 1]) [] 3 0 2
    lenA s = (bits [1]).length + rbits (bits [1]).length ∧ s.arg.toNat = rbits (bits [1]).length ∧ 2 ≤ lenA s ∧
      3 = 1 ^^^ 2 ∧ 3 ≤ lenA s ∧
      prefixBits (lenA s) s.a = flipBit (flipBit (hamPacket (bits [1])) (1 - 1)) (2 - 1) := by decide

theorem witness_ChecksPastThePacketAddNothing :
    3 < 2 ^ 2 ∧ 1 ≤ 1 ∧ 32768 ≤ 32768 ∧ 3 = 1 + rbits 1 ∧ rbits 1 ≤ 2 := by decide

theorem witness_SecondDecodeFindsNothing :
    Inv (running 5 0 oneFlip) ∧ ∃ t, exec .hamDec (running 5 0 oneFlip) = .next t ∧ t.err = .noError :=
  ⟨inv_oneFlip, _, rfl, by decide⟩

theorem witness_StepKeepsTheInvariant :
    Inv (running 5 0 oneFlip) ∧ ∃ t, step (running 5 0 oneFlip) = .next t := ⟨inv_oneFlip, _, rfl⟩

/-- Accesses, a reset, its release, and an access after it. -/
theorem witness_AdmittedRunNeverStops :
    let s := { small with
      port := [.write 0x8008 4 1, .read 0x800C 4, .rst true, .rst false, .read 0xBFFC 4] }
    portAdmitted s.params s.rst s.port = true := by decide

/-- A waiting access; and a host that loops on a label and a branch for ever, with no access at all. -/
theorem witness_BusyEndsWithinTheHostTurns :
    (let s := running 1 2 (withEvent (.read 0x800C 4) small)
     s.busy = true ∧ s.rst = false ∧ portAdmitted s.params s.rst s.port = true) ∧
    let h : HostRun :=
      { prog := [.label 0, .ifGoto (.eq (.lit 0) (.lit 0)) 0], hpc := 0, temps := [], awaiting := []
        block := running 1 5 small }
    h.block.busy = true ∧ h.block.rst = false ∧ HostAdmitted h :=
  ⟨by decide, rfl, rfl, rfl, fun st hst temps e he => by
    simp only [List.mem_cons, List.not_mem_nil, or_false] at hst
    rcases hst with rfl | rfl <;> simp [stmtEvents] at he⟩

theorem write_is_no_reset (addr size : Nat) (v : Word) (rest : List PortEvent) :
    [PortEvent.write addr size v] ≠ .rst true :: rest := by simp

theorem witness_OperandsFrozenWhileBusy :
    let s := running 1 1 (withEvent (.write 0x8018 4 9) small)
    s.busy = true ∧ ¬ EngineMoves s ∧ (∀ rest, s.port ≠ .rst true :: rest) ∧ ∃ t, step s = .next t :=
  ⟨rfl, by decide, write_is_no_reset _ _ _, _, rfl⟩

/-- A command is accepted: ERR is cleared. -/
theorem witness_ResultsLiveUntilACompletion :
    let s := withEvent (.write 0x8008 4 1) { small with err := .badLength }
    ¬ EngineMoves s ∧ (∀ rest, s.port ≠ .rst true :: rest) ∧ ∃ t, step s = .next t ∧ t.err = .noError :=
  ⟨by decide, write_is_no_reset _ _ _, _, rfl, rfl⟩

/-- A write of STATUS that leaves DONE alone. -/
theorem witness_PollingNeverMissesACommand :
    let s := withEvent (.write 0x800C 4 4) small
    (s.busy = true ∨ s.done = true) ∧ (∀ rest, s.port ≠ .rst true :: rest) ∧
      (∀ v rest, v.getLsbD 1 = true → s.port ≠ .write (regAddr s.params .status) 4 v :: rest) ∧
      ∃ t, step s = .next t :=
  ⟨by decide, write_is_no_reset _ _ _,
    fun v rest hv h => by
      have : v = 4 := by
        cases h
        rfl
      subst this
      exact absurd hv (by decide),
    _, rfl⟩

/-- 33 bits, as many as G has. -/
theorem witness_LdbitsLoadsTheString :
    let l := zeroFill 33 (bits [1, 1])
    let s := { small with port := programEvents cfg [] (ldbitsStmts .g l) }
    Inv s ∧ s.busy = false ∧ s.rst = false ∧ Buf.g ≠ .y ∧ l.length ≤ (bufferOf s .g).length ∧
      s.port = programEvents s.params [] (ldbitsStmts .g l) :=
  ⟨{ legal := by decide, memory := by decide, yLen_le := by decide, result_le := by decide
     busy_quiet := by decide, rst_holds := by decide },
    by decide⟩

theorem witness_WaitLoopEnds :
    let h : HostRun :=
      { prog := [.wr .ctrl (.lit 1)] ++ waitStmts 0 5 ++ ackStmts, hpc := 1, temps := [], awaiting := []
        block := running 1 2 small }
    h.prog = [.wr .ctrl (.lit 1)] ++ waitStmts 0 5 ++ ackStmts ∧ Stmt.label 0 ∉ [Stmt.wr .ctrl (.lit 1)] ∧
      h.hpc = [Stmt.wr .ctrl (.lit 1)].length ∧ h.awaiting = [] ∧ h.block.busy = true ∧ h.block.rst = false ∧
      h.block.port = [] := by decide

/-- Y holds `Y_LEN = 3` bits. -/
theorem witness_RdbitsReadsTheString :
    let s := { small with port := programEvents cfg [(0, 3)] (rdbitsStmts .y 0) }
    Inv s ∧ s.busy = false ∧ s.rst = false ∧ 3 = (storedReg s (lengthReg .y)).toNat ∧
      3 ≤ (bufferOf s .y).length ∧ s.port = programEvents s.params [(0, storedReg s .yLen)] (rdbitsStmts .y 0) :=
  ⟨{ legal := by decide, memory := by decide, yLen_le := by decide, result_le := by decide
     busy_quiet := by decide, rst_holds := by decide },
    by decide⟩

/-- A host at `rdbits A` with `A_LEN = 64`, the capacity: two words. -/
def rdbitsHost : HostRun where
  prog := ackStmts ++ rdbitsStmts .a 5 ++ ackStmts
  hpc := 1
  temps := [(4, 9)]
  awaiting := []
  block := { small with aLen := 64 }

theorem witness_RdbitsRunsAtTheCurrentLength :
    rdbitsHost.prog = ackStmts ++ rdbitsStmts .a 5 ++ ackStmts ∧ rdbitsHost.hpc = ackStmts.length ∧
      rdbitsHost.awaiting = [] ∧ Inv rdbitsHost.block ∧ rdbitsHost.block.busy = false ∧
      rdbitsHost.block.rst = false ∧ rdbitsHost.block.port = [] ∧
      64 = (storedReg rdbitsHost.block (lengthReg ReadBuf.a.buf)).toNat ∧
      64 ≤ (bufferOf rdbitsHost.block ReadBuf.a.buf).length ∧ (4 < 5 ∨ 5 + wordsFor 64 < 4) :=
  ⟨rfl, rfl, rfl,
    { legal := by decide, memory := by decide, yLen_le := by decide, result_le := by decide
      busy_quiet := by decide, rst_holds := by decide },
    by decide⟩

theorem witness_CommandAndAcknowledgeStatements :
    (let s := { small with port := programEvents cfg [] ackStmts }
     s.rst = false ∧ ¬ EngineMoves s ∧ s.port = programEvents s.params [] ackStmts) ∧
    let s := { small with port := programEvents cfg [] ackovrStmts }
    s.rst = false ∧ ¬ EngineMoves s ∧ s.port = programEvents s.params [] ackovrStmts := by decide

end Sys2Proof.Tests
end

section
/-! SUPPORT. Each command by cases: one equation per outcome of its run (40_crc.md R120, R121; 41_hamming.md R150, R160,
R170), and the redundancy `rbits` by its defining property. -/

namespace Sys2Proof.Machine

/-! ## One equation per outcome of a command -/

theorem exec_crcRem_error {s : State} {k : ErrorKind} (h : crcCheck (crcRemTooShort s) s = some k) :
    exec .crcRem s = .next (complete k s) := by
  simp only [exec, execCrcRem, h, raise]

theorem exec_crcRem_ok {s : State} (h : crcCheck (crcRemTooShort s) s = none) :
    exec .crcRem s = .next (complete .noError (putY (crcRemainder s) s)) := by
  simp only [exec, execCrcRem, h, finish]

theorem exec_crcVerify_error {s : State} {k : ErrorKind} (h : crcCheck (crcVerifyTooShort s) s = some k) :
    exec .crcVerify s = .next (complete k s) := by
  simp only [exec, execCrcVerify, h, raise]

theorem exec_crcVerify_ok {s : State} (h : crcCheck (crcVerifyTooShort s) s = none) :
    exec .crcVerify s = .next (complete .noError
      (putResult (if crcReceived s = zeros (lenG s - 1) then 1 else 0) (putY (crcReceived s) s))) := by
  simp only [exec, execCrcVerify, h, finish]

theorem exec_hamRbits (s : State) :
    exec .hamRbits s = .next (complete .noError (putResult (rbits (argNat s)) s)) := rfl

/-- HAM_ENC's two length checks are one: the second implies the first (41_hamming.md R160). -/
theorem exec_hamEnc_badLength {s : State} (h : s.params.lMax < lenA s + rbits (lenA s)) :
    exec .hamEnc s = .next (complete .badLength s) := by
  simp only [exec, execHamEnc, gt_iff_lt, h, if_true, ite_self, raise]

theorem exec_hamEnc_ok {s : State} (h : lenA s + rbits (lenA s) ≤ s.params.lMax) :
    exec .hamEnc s = .next (complete .noError (putResult (rbits (lenA s)) (putY (hamPacket (stringA s)) s))) := by
  have hm : lenA s ≤ s.params.lMax := by omega
  simp only [exec, execHamEnc, gt_iff_lt, not_lt.mpr h, not_lt.mpr hm, if_false, finish]

theorem exec_hamDec_badLength {s : State} (h : s.params.lMax < lenA s) :
    exec .hamDec s = .next (complete .badLength s) := by
  simp only [exec, execHamDec, gt_iff_lt, h, if_true, raise]

theorem exec_hamDec_clean {s : State} (h : lenA s ≤ s.params.lMax) (he : hamSyndrome s = 0) :
    exec .hamDec s = .next (complete .noError (putResult (hamSyndrome s) s)) := by
  simp only [exec, execHamDec, gt_iff_lt, not_lt.mpr h, if_false, he, if_true, finish]

theorem exec_hamDec_corrected {s : State} (h : lenA s ≤ s.params.lMax) (he : hamSyndrome s ≠ 0)
    (hle : hamSyndrome s ≤ lenA s) :
    exec .hamDec s =
      .next (complete .noError (flipA (hamSyndrome s - 1) (putResult (hamSyndrome s) s))) := by
  simp only [exec, execHamDec, gt_iff_lt, not_lt.mpr h, he, hle, if_false, if_true, finish]

theorem exec_hamDec_uncorrectable {s : State} (h : lenA s ≤ s.params.lMax) (hgt : lenA s < hamSyndrome s) :
    exec .hamDec s = .next (complete .uncorrectableSyndrome (putResult (hamSyndrome s) s)) := by
  have he : hamSyndrome s ≠ 0 := by omega
  simp only [exec, execHamDec, gt_iff_lt, not_lt.mpr h, he, not_le.mpr hgt, if_false, raise]

theorem crcRemTooShort_false_iff {s : State} : crcRemTooShort s = false ↔ 1 ≤ lenA s ∧ 2 ≤ lenG s := by
  simp only [crcRemTooShort, Bool.or_eq_false_iff, decide_eq_false_iff_not]
  omega

theorem crcVerifyTooShort_false_iff {s : State} : crcVerifyTooShort s = false ↔ 2 ≤ lenG s ∧ lenG s ≤ lenA s := by
  simp only [crcVerifyTooShort, Bool.or_eq_false_iff, decide_eq_false_iff_not]
  omega

theorem engineStep_command {s : State} {i : Instr} (h : decode s.cmd = .command i) : engineStep s = exec i s := by
  simp only [engineStep, h]

theorem engineStep_illegal {s : State} {why : Illegal} (h : decode s.cmd = .illegal why) :
    engineStep s = .next (complete .illegalCommand s) := by
  simp only [engineStep, h, completeIllegal, raise]

/-- What any command leaves alone: everything but A, Y, Y_LEN, RESULT and STATUS (30_encoding.md R92; 60_exceptions.md
R182). -/
theorem exec_frame {i : Instr} {s t : State} (h : exec i s = .next t) :
    t = { s with
      a := t.a, y := t.y, yLen := t.yLen, result := t.result, err := t.err, done := true, busy := false } := by
  cases i with
  | crcRem =>
    simp only [exec, execCrcRem] at h
    split at h <;> (cases h; rfl)
  | crcVerify =>
    simp only [exec, execCrcVerify] at h
    split at h <;> (cases h; rfl)
  | hamRbits =>
    cases h
    rfl
  | hamEnc =>
    simp only [exec, execHamEnc] at h
    split_ifs at h <;> (cases h; rfl)
  | hamDec =>
    simp only [exec, execHamDec] at h
    split_ifs at h <;> (cases h; rfl)

/-! ## The redundancy -/

/-- `rbits(m)` is the least `r` with `2^r ≥ m + r + 1` (41_hamming.md R150, R151): the loop's fuel suffices. -/
theorem rbits_least (m : Nat) : LeastRedundancy m (rbits m) := by
  have hfuel : m + (0 + (m + 1)) + 1 ≤ 2 ^ (0 + (m + 1)) := by
    have hm : m < 2 ^ m := Nat.lt_two_pow_self
    rw [Nat.zero_add, Nat.pow_succ]
    omega
  obtain ⟨-, hsat, hmin⟩ := rbitsFrom_spec (m + 1) 0 m hfuel
  exact ⟨hsat, fun q hq => hmin q (Nat.zero_le q) hq⟩

theorem rbits_le_of_le_two_pow {m q : Nat} (h : m + q + 1 ≤ 2 ^ q) : rbits m ≤ q := by
  by_contra hlt
  have := (rbits_least m).2 q (by omega)
  omega

theorem rbits_argNat_le (s : State) : rbits (argNat s) ≤ 33 := by
  have hs : argNat s < 2 ^ 32 := s.arg.isLt
  exact rbits_le_of_le_two_pow (by omega)

/-- The checks past the bit length of `n` are not made, so the error position is below `2 ^ (log2 n + 1)`
(41_hamming.md R171). -/
theorem hamSyndrome_le {s : State} (h : lenA s ≤ 32768) : hamSyndrome s ≤ 65535 := by
  have hlog : (lenA s).log2 ≤ 15 := by
    rcases Nat.eq_zero_or_pos (lenA s) with h0 | hpos
    · simp [h0]
    · have := (Nat.log2_lt (k := 16) (by omega)).mpr (by omega : lenA s < 2 ^ 16)
      omega
  have hchecks : checksMade (lenA s) (argNat s) ≤ 16 := by
    unfold checksMade
    omega
  have hlt : hamSyndrome s < 2 ^ 16 :=
    (syndromeOver_lt _ _ _).trans_le (Nat.pow_le_pow_right (by decide) hchecks)
  omega

end Sys2Proof.Machine
end

section
/-! SUPPORT. The invariant: every named update of the state keeps it, so every command, every event and every step
does. -/

namespace Sys2Proof.Machine

/-! ## The named updates, with `rst` released -/

theorem complete_inv {s : State} (k : ErrorKind) (hi : Inv s) (hr : s.rst = false) : Inv (complete k s) :=
  { hi with busy_quiet := by simp, rst_holds := by simp [hr] }

theorem putY_inv {s : State} {bits : Bits} (hb : bits.length ≤ s.params.lMax) (hi : Inv s) (hr : s.rst = false) :
    Inv (putY bits s) :=
  { hi with
    memory := putY_memory hb hi.memory
    yLen_le := (Nat.mod_le _ _).trans hb
    rst_holds := by simp [hr] }

theorem putResult_inv {s : State} {v : Nat} (hv : v ≤ 65535) (hi : Inv s) (hr : s.rst = false) :
    Inv (putResult v s) :=
  { hi with result_le := (Nat.mod_le _ _).trans hv, rst_holds := by simp [hr] }

theorem flipA_inv {s : State} (j : Nat) (hi : Inv s) (hr : s.rst = false) : Inv (flipA j s) :=
  { hi with memory := flipA_memory hi.memory, rst_holds := by simp [hr] }

theorem takeTurn_inv {s : State} (rest : List PortEvent) (hi : Inv s) : Inv (takeTurn rest s) := { hi with }

theorem overrun_inv {s : State} (hi : Inv s) (hr : s.rst = false) : Inv (overrun s) :=
  { hi with rst_holds := by simp [hr] }

/-- An acceptance clears DONE and ERR as it starts a run (10_state.md R41). -/
theorem accept_inv {s : State} (v : Word) (hi : Inv s) (hr : s.rst = false) : Inv (accept v s) :=
  { hi with busy_quiet := by simp, rst_holds := by simp [hr] }

/-- A write of STATUS can only clear DONE, so a running block's stays clear (10_state.md R44). -/
theorem writeStatus_inv {s : State} (v : Word) (hi : Inv s) (hr : s.rst = false) : Inv (writeStatus v s) :=
  { hi with
    busy_quiet := fun hb => by
      obtain ⟨hd, he⟩ := hi.busy_quiet hb
      exact ⟨by simp [hd], he⟩
    rst_holds := by simp [hr] }

/-! ## Events -/

theorem readLoc_inv {s : State} (l : Loc) (hi : Inv s) : Inv (readLoc l s) := by
  rw [readLoc_frame]; exact { hi with }

theorem writeLoc_inv {s : State} (v : Word) (l : Loc) (hi : Inv s) (hr : s.rst = false) : Inv (writeLoc v l s) := by
  have hm := writeLoc_memory (v := v) (l := l) hi.memory
  have held : ∀ {t : State}, s.rst = true → RegistersReset t := fun h => absurd h (by simp [hr])
  rcases writeLoc_cases v l s with
    e | ⟨-, e⟩ | ⟨-, -, e⟩ | ⟨-, e⟩ | ⟨-, e⟩ | ⟨-, _, _, _, _, _, -, -, e⟩ <;> rw [e] at hm ⊢
  · exact hi
  · exact overrun_inv hi hr
  · exact accept_inv v hi hr
  · exact writeStatus_inv v hi hr
  · exact { hi with rst_holds := held }
  · exact { hi with memory := hm, rst_holds := held }

/-- Asserting `rst` leaves the reset state under the same parameters; releasing it keeps every register
(70_reset_and_hazards.md R210). -/
theorem driveRst_inv {s : State} (level : Bool) (hi : Inv s) : Inv (driveRst level s) := by
  unfold driveRst
  cases level with
  | false => exact { hi with rst_holds := by simp }
  | true =>
    cases hr : s.rst with
    | true => simpa [hr] using hi
    | false =>
      obtain ⟨hregs, hmem, -⟩ := assertReset_fields s
      exact
        { legal := hi.legal
          memory := hmem
          yLen_le := Nat.zero_le _
          result_le := Nat.zero_le _
          busy_quiet := fun _ => ⟨rfl, rfl⟩
          rst_holds := fun _ => hregs }

theorem portEvent_inv {e : PortEvent} {s t : State} (hi : Inv s) (h : portEvent e s = .next t) : Inv t := by
  rcases portEvent_cases h with ⟨addr, -, -, -, rfl⟩ | ⟨addr, v, -, hr, -, rfl⟩ | ⟨level, -, rfl⟩
  · exact readLoc_inv _ hi
  · exact writeLoc_inv v _ hi hr
  · exact driveRst_inv level hi

/-! ## Completions: each command has a next state, and it meets the invariant -/

section Completions
variable {s : State} (hi : Inv s) (hr : s.rst = false)
include hi hr

theorem exec_crcRem_inv : ∃ t, exec .crcRem s = .next t ∧ Inv t := by
  cases hc : crcCheck (crcRemTooShort s) s with
  | some k => exact ⟨_, exec_crcRem_error hc, complete_inv k hi hr⟩
  | none =>
    obtain ⟨-, hg, -, -⟩ := (crcCheck_none_iff _ s).mp hc
    have hcap := hi.legal
    have hlen : (crcRemainder s).length ≤ s.params.lMax := by rw [length_crcRemainder]; omega
    exact ⟨_, exec_crcRem_ok hc, complete_inv _ (putY_inv hlen hi hr) hr⟩

theorem exec_crcVerify_inv : ∃ t, exec .crcVerify s = .next t ∧ Inv t := by
  cases hc : crcCheck (crcVerifyTooShort s) s with
  | some k => exact ⟨_, exec_crcVerify_error hc, complete_inv k hi hr⟩
  | none =>
    obtain ⟨-, hg, hshort, -⟩ := (crcCheck_none_iff _ s).mp hc
    obtain ⟨-, hga⟩ := crcVerifyTooShort_false_iff.mp hshort
    have hcap := hi.legal
    have hlen : (crcReceived s).length ≤ s.params.lMax := by rw [length_crcReceived hga]; omega
    have hbit : (if crcReceived s = zeros (lenG s - 1) then 1 else 0) ≤ 65535 := by split <;> decide
    exact ⟨_, exec_crcVerify_ok hc, complete_inv _ (putResult_inv hbit (putY_inv hlen hi hr) hr) hr⟩

theorem exec_hamRbits_inv : ∃ t, exec .hamRbits s = .next t ∧ Inv t := by
  have hv := rbits_argNat_le s
  exact ⟨_, exec_hamRbits s, complete_inv _ (putResult_inv (by omega) hi hr) hr⟩

theorem exec_hamEnc_inv : ∃ t, exec .hamEnc s = .next t ∧ Inv t := by
  rcases Nat.lt_or_ge s.params.lMax (lenA s + rbits (lenA s)) with hlong | hfits
  · exact ⟨_, exec_hamEnc_badLength hlong, complete_inv _ hi hr⟩
  · have hcap := hi.legal
    have hlen : (hamPacket (stringA s)).length ≤ s.params.lMax := by simpa [stringA] using hfits
    exact ⟨_, exec_hamEnc_ok hfits, complete_inv _ (putResult_inv (by omega) (putY_inv hlen hi hr) hr) hr⟩

theorem exec_hamDec_inv : ∃ t, exec .hamDec s = .next t ∧ Inv t := by
  rcases Nat.lt_or_ge s.params.lMax (lenA s) with hlong | hfits
  · exact ⟨_, exec_hamDec_badLength hlong, complete_inv _ hi hr⟩
  have hcap := hi.legal
  have hres : Inv (putResult (hamSyndrome s) s) := putResult_inv (hamSyndrome_le (by omega)) hi hr
  by_cases he : hamSyndrome s = 0
  · exact ⟨_, exec_hamDec_clean hfits he, complete_inv _ hres hr⟩
  rcases Nat.lt_or_ge (lenA s) (hamSyndrome s) with hgt | hle
  · exact ⟨_, exec_hamDec_uncorrectable hfits hgt, complete_inv _ hres hr⟩
  · exact ⟨_, exec_hamDec_corrected hfits he hle, complete_inv _ (flipA_inv _ hres hr) hr⟩

theorem exec_inv (i : Instr) : ∃ t, exec i s = .next t ∧ Inv t := by
  cases i with
  | crcRem => exact exec_crcRem_inv hi hr
  | crcVerify => exact exec_crcVerify_inv hi hr
  | hamRbits => exact exec_hamRbits_inv hi hr
  | hamEnc => exact exec_hamEnc_inv hi hr
  | hamDec => exact exec_hamDec_inv hi hr

theorem engineStep_inv : ∃ t, engineStep s = .next t ∧ Inv t := by
  cases hd : decode s.cmd with
  | command i => rw [engineStep_command hd]; exact exec_inv hi hr i
  | illegal why => exact ⟨_, engineStep_illegal hd, complete_inv _ hi hr⟩

end Completions

/-! ## Steps -/

theorem step_inv {s t : State} (hi : Inv s) (h : step s = .next t) : Inv t := by
  rcases step_cases h with ⟨⟨-, hr, -⟩, he⟩ | ⟨-, e, rest, -, hp⟩ | ⟨-, -, rfl⟩
  · obtain ⟨u, hu, hiu⟩ := engineStep_inv hi hr
    cases he.symm.trans hu
    exact hiu
  · exact portEvent_inv (takeTurn_inv rest hi) hp
  · exact hi

end Sys2Proof.Machine
end

section
/-! SUPPORT. The parameters: nothing that happens to the block changes them (00_scope.md R7). -/

namespace Sys2Proof.Machine

@[simp] theorem readLoc_params (l : Loc) (s : State) : (readLoc l s).params = s.params := by rw [readLoc_frame]

@[simp] theorem writeLoc_params (v : Word) (l : Loc) (s : State) : (writeLoc v l s).params = s.params := by
  rcases writeLoc_cases v l s with
    e | ⟨-, e⟩ | ⟨-, -, e⟩ | ⟨-, e⟩ | ⟨-, e⟩ | ⟨-, _, _, _, _, _, -, -, e⟩ <;> rw [e] <;> rfl

@[simp] theorem driveRst_params (level : Bool) (s : State) : (driveRst level s).params = s.params := by
  unfold driveRst
  split
  · split <;> rfl
  · rfl

theorem portEvent_params {e : PortEvent} {s t : State} (h : portEvent e s = .next t) : t.params = s.params := by
  rcases portEvent_cases h with ⟨addr, -, -, -, rfl⟩ | ⟨addr, v, -, -, -, rfl⟩ | ⟨level, -, rfl⟩
  · exact readLoc_params _ s
  · exact writeLoc_params v _ s
  · exact driveRst_params level s

theorem exec_params {i : Instr} {s t : State} (h : exec i s = .next t) : t.params = s.params := by
  rw [exec_frame h]

theorem engineStep_params {s t : State} (h : engineStep s = .next t) : t.params = s.params := by
  cases hd : decode s.cmd with
  | command i => exact exec_params (engineStep_command hd ▸ h)
  | illegal why =>
    rw [engineStep_illegal hd] at h
    cases h
    rfl

theorem step_params {s t : State} (h : step s = .next t) : t.params = s.params := by
  rcases step_cases h with ⟨-, he⟩ | ⟨-, e, rest, -, hp⟩ | ⟨-, -, rfl⟩
  · exact engineStep_params he
  · exact (portEvent_params hp).trans (takeTurn_params rest s)
  · rfl

/-- Settles O50: each clause of the invariant is kept by every named update that a step makes, so by every completion,
every host event and the idle step. -/
theorem stepKeepsTheInvariant : Obligations.StepKeepsTheInvariant := by
  unfold Obligations.StepKeepsTheInvariant
  exact fun s t hi h => ⟨step_inv hi h, step_params h⟩

end Sys2Proof.Machine
end

section
/-! SUPPORT. Two states with the same operands: every quantity that a command computes is the same in both (00_scope.md
R19; 20_memory.md R69). -/

namespace Sys2Proof.Machine

/-- The two states agree on what a command may read: the parameters, ARG, the lengths, and the buffer bits below
them. -/
structure SameOperands (s t : State) : Prop where
  params : s.params = t.params
  aLen : s.aLen = t.aLen
  gLen : s.gLen = t.gLen
  arg : s.arg = t.arg
  bitsA : ∀ j < lenA s, bitAt s.a j = bitAt t.a j
  bitsG : ∀ j < lenG s, bitAt s.g j = bitAt t.g j

namespace SameOperands

variable {s t : State}

theorem lenA_eq (h : SameOperands s t) : lenA s = lenA t := congrArg BitVec.toNat h.aLen

theorem lenG_eq (h : SameOperands s t) : lenG s = lenG t := congrArg BitVec.toNat h.gLen

theorem argNat_eq (h : SameOperands s t) : argNat s = argNat t := congrArg BitVec.toNat h.arg

theorem stringA_eq (h : SameOperands s t) : stringA s = stringA t := by
  rw [stringA, stringA, ← h.lenA_eq, prefixBits_congr h.bitsA]

theorem generator_eq (h : SameOperands s t) : generator s = generator t := by
  rw [generator, generator, ← h.lenG_eq, prefixBits_congr h.bitsG]

theorem crcRemTooShort_eq (h : SameOperands s t) : crcRemTooShort s = crcRemTooShort t := by
  rw [crcRemTooShort, crcRemTooShort, h.lenA_eq, h.lenG_eq]

theorem crcVerifyTooShort_eq (h : SameOperands s t) : crcVerifyTooShort s = crcVerifyTooShort t := by
  rw [crcVerifyTooShort, crcVerifyTooShort, h.lenA_eq, h.lenG_eq]

/-- G's first bit is looked at only after the length check, so only where it lies below G_LEN. -/
theorem crcCheck_eq (h : SameOperands s t) {short : Bool} (hs : short = false → 0 < lenG s) :
    crcCheck short s = crcCheck short t := by
  unfold crcCheck
  cases short with
  | true => simp only [h.lenA_eq, h.lenG_eq, h.params, if_true]
  | false => rw [h.bitsG 0 (hs rfl), h.lenA_eq, h.lenG_eq, h.params]

theorem crcRem_check_eq (h : SameOperands s t) :
    crcCheck (crcRemTooShort s) s = crcCheck (crcRemTooShort t) t := by
  rw [← h.crcRemTooShort_eq]
  refine h.crcCheck_eq fun hs => ?_
  obtain ⟨-, hg⟩ := crcRemTooShort_false_iff.mp hs
  omega

theorem crcVerify_check_eq (h : SameOperands s t) :
    crcCheck (crcVerifyTooShort s) s = crcCheck (crcVerifyTooShort t) t := by
  rw [← h.crcVerifyTooShort_eq]
  refine h.crcCheck_eq fun hs => ?_
  obtain ⟨hg, -⟩ := crcVerifyTooShort_false_iff.mp hs
  omega

theorem crcRemainder_eq (h : SameOperands s t) : crcRemainder s = crcRemainder t := by
  rw [crcRemainder, crcRemainder, h.stringA_eq, h.generator_eq, h.lenA_eq, h.lenG_eq]

theorem crcReceived_eq (h : SameOperands s t) : crcReceived s = crcReceived t := by
  rw [crcReceived, crcReceived, h.stringA_eq, h.generator_eq, h.lenA_eq, h.lenG_eq]

theorem hamSyndrome_eq (h : SameOperands s t) : hamSyndrome s = hamSyndrome t := by
  rw [hamSyndrome, hamSyndrome, h.stringA_eq, h.lenA_eq, h.argNat_eq]

end SameOperands

/-! ## What two completions report -/

/-- The two completions of command `i` report the same: ERR, the results that `i` writes where it writes them, and the
first `n` bits of A. -/
structure SameReport (i : Instr) (n : Nat) (s t : State) : Prop where
  err : s.err = t.err
  y : s.err = .noError → i = .crcRem ∨ i = .crcVerify ∨ i = .hamEnc → s.y = t.y ∧ s.yLen = t.yLen
  result : s.err = .noError ∨ s.err = .uncorrectableSyndrome → i ≠ .crcRem → s.result = t.result
  bitsA : ∀ j < n, bitAt s.a j = bitAt t.a j

/-- Command `i` completes in both states, and reports the same. -/
def RunsAlike (i : Instr) (s t : State) : Prop :=
  ∃ s' t', exec i s = .next s' ∧ exec i t = .next t' ∧ SameReport i (lenA s) s' t'

section Reports
variable {s t : State} (h : SameOperands s t)
include h

/-- An error with nothing written reports its code only (60_exceptions.md R183). -/
theorem sameReport_of_error (i : Instr) {k : ErrorKind} (h0 : k ≠ .noError) (h3 : k ≠ .uncorrectableSyndrome) :
    SameReport i (lenA s) (complete k s) (complete k t) where
  err := rfl
  y he := absurd he h0
  result he := absurd he (not_or.mpr ⟨h0, h3⟩)
  bitsA := h.bitsA

theorem sameReport_of_crcCheck (i : Instr) {short : Bool} {k : ErrorKind} (hk : crcCheck short s = some k) :
    SameReport i (lenA s) (complete k s) (complete k t) := by
  rcases crcCheck_some hk with rfl | rfl | rfl <;> exact sameReport_of_error h i (by decide) (by decide)

/-- A correction inverts the same bit in both: A has the same capacity in both. -/
theorem bitAt_flipBit_congr {e j : Nat} (hcap : s.a.length = t.a.length) (hj : j < lenA s) :
    bitAt (flipBit s.a e) j = bitAt (flipBit t.a e) j := by
  rw [bitAt_flipBit, bitAt_flipBit, hcap, h.bitsA j hj]

theorem crcRem_runsAlike : RunsAlike .crcRem s t := by
  have heq := h.crcRem_check_eq
  cases hc : crcCheck (crcRemTooShort s) s with
  | some k => exact ⟨_, _, exec_crcRem_error hc, exec_crcRem_error (heq ▸ hc), sameReport_of_crcCheck h _ hc⟩
  | none =>
    exact ⟨_, _, exec_crcRem_ok hc, exec_crcRem_ok (heq ▸ hc),
      { err := rfl, y := by simp [h.params, h.crcRemainder_eq], result := by simp, bitsA := h.bitsA }⟩

theorem crcVerify_runsAlike : RunsAlike .crcVerify s t := by
  have heq := h.crcVerify_check_eq
  cases hc : crcCheck (crcVerifyTooShort s) s with
  | some k =>
    exact ⟨_, _, exec_crcVerify_error hc, exec_crcVerify_error (heq ▸ hc), sameReport_of_crcCheck h _ hc⟩
  | none =>
    exact ⟨_, _, exec_crcVerify_ok hc, exec_crcVerify_ok (heq ▸ hc),
      { err := rfl
        y := by simp [h.params, h.crcReceived_eq]
        result := by simp [h.crcReceived_eq, h.lenG_eq]
        bitsA := h.bitsA }⟩

theorem hamRbits_runsAlike : RunsAlike .hamRbits s t :=
  ⟨_, _, exec_hamRbits s, exec_hamRbits t,
    { err := rfl, y := by simp, result := by simp [h.argNat_eq], bitsA := h.bitsA }⟩

theorem hamEnc_runsAlike : RunsAlike .hamEnc s t := by
  rcases Nat.lt_or_ge s.params.lMax (lenA s + rbits (lenA s)) with hlong | hfits
  · exact ⟨_, _, exec_hamEnc_badLength hlong, exec_hamEnc_badLength (h.params ▸ h.lenA_eq ▸ hlong),
      sameReport_of_error h _ (by decide) (by decide)⟩
  · exact ⟨_, _, exec_hamEnc_ok hfits, exec_hamEnc_ok (h.params ▸ h.lenA_eq ▸ hfits),
      { err := rfl
        y := by simp [h.params, h.stringA_eq]
        result := by simp [h.lenA_eq]
        bitsA := h.bitsA }⟩

theorem hamDec_runsAlike (hcap : s.a.length = t.a.length) : RunsAlike .hamDec s t := by
  have hsyn := h.hamSyndrome_eq
  rcases Nat.lt_or_ge s.params.lMax (lenA s) with hlong | hfits
  · exact ⟨_, _, exec_hamDec_badLength hlong, exec_hamDec_badLength (h.params ▸ h.lenA_eq ▸ hlong),
      sameReport_of_error h _ (by decide) (by decide)⟩
  have hfits' : lenA t ≤ t.params.lMax := h.params ▸ h.lenA_eq ▸ hfits
  by_cases he : hamSyndrome s = 0
  · exact ⟨_, _, exec_hamDec_clean hfits he, exec_hamDec_clean hfits' (hsyn ▸ he),
      { err := rfl, y := by simp, result := by simp [hsyn], bitsA := h.bitsA }⟩
  rcases Nat.lt_or_ge (lenA s) (hamSyndrome s) with hgt | hle
  · exact ⟨_, _, exec_hamDec_uncorrectable hfits hgt,
      exec_hamDec_uncorrectable hfits' (hsyn ▸ h.lenA_eq ▸ hgt),
      { err := rfl, y := by simp, result := by simp [hsyn], bitsA := h.bitsA }⟩
  · exact ⟨_, _, exec_hamDec_corrected hfits he hle,
      exec_hamDec_corrected hfits' (hsyn ▸ he) (hsyn ▸ h.lenA_eq ▸ hle),
      { err := rfl
        y := by simp
        result := by simp [hsyn]
        bitsA := fun j hj => by simpa [hsyn] using bitAt_flipBit_congr h hcap hj }⟩

theorem exec_runsAlike (hcap : s.a.length = t.a.length) (i : Instr) : RunsAlike i s t := by
  cases i with
  | crcRem => exact crcRem_runsAlike h
  | crcVerify => exact crcVerify_runsAlike h
  | hamRbits => exact hamRbits_runsAlike h
  | hamEnc => exact hamEnc_runsAlike h
  | hamDec => exact hamDec_runsAlike h hcap

end Reports

/-- Settles O34: every quantity the commands branch on or write is the same for equal operands, and the capacity of A,
which the invariant fixes, puts a correction at the same bit. -/
theorem outcomeDependsOnOperandsOnly : Obligations.OutcomeDependsOnOperandsOnly := by
  unfold Obligations.OutcomeDependsOnOperandsOnly
  intro i s t s' t' his hit hparams haLen hgLen harg ha hg hs ht
  have hcap : s.a.length = t.a.length := by rw [his.memory.1, hit.memory.1, hparams]
  obtain ⟨_, _, hu, hv, herr, hy, hresult, hbits⟩ := exec_runsAlike ⟨hparams, haLen, hgLen, harg, ha, hg⟩ hcap i
  cases hs.symm.trans hu
  cases ht.symm.trans hv
  exact ⟨herr, hy, hresult, hbits⟩

end Sys2Proof.Machine
end

section
/-! SUPPORT. Host reads and writes of each register and window, said once per kind of location (10_state.md R24 to R49). -/

namespace Sys2Proof.Machine

/-! ## Writes -/

/-- A write that answers a next state left the register's write behind, so `rst` was released. -/
theorem write_reg_next {s t : State} {r : Reg} {v : Word}
    (h : portEvent (.write (regAddr s.params r) 4 v) s = .next t) : t = writeReg v r s := by
  obtain ⟨hr, -, -⟩ := access_next h
  rw [write_reg hr] at h
  cases h
  rfl

/-- The writes that a busy engine discards: CMD and the operand registers (10_state.md R42, R43). -/
theorem writeReg_busy {s : State} (hb : s.busy = true) {r : Reg} (h : r ∈ [Reg.cmd, .arg, .aLen, .gLen]) (v : Word) :
    writeReg v r s = overrun s := by
  cases r with
  | cmd | arg | aLen | gLen => rw [writeReg, unlessBusy_busy hb]
  | cfg | ctrl | status | result | yLen => simp at h

theorem write_reg_busy {s : State} (hr : s.rst = false) (hb : s.busy = true) {r : Reg}
    (h : r ∈ [Reg.cmd, .arg, .aLen, .gLen]) (v : Word) :
    portEvent (.write (regAddr s.params r) 4 v) s = .next { s with ovr := true } := by
  rw [write_reg hr, writeReg_busy hb h, overrun]

/-- A busy engine discards the writes of both operand windows (10_state.md R43). -/
theorem write_window_busy {s : State} (hr : s.rst = false) (hb : s.busy = true) {x : Buf} (hx : x ≠ .y) {w : Nat}
    (hw : w < 1024) (v : Word) :
    portEvent (.write (windowAddr s.params x w) 4 v) s = .next { s with ovr := true } := by
  rw [write_window hr x hw]
  cases x with
  | a | g => rw [writeWindow, unlessBusy_busy hb, overrun]
  | y => exact absurd rfl hx

theorem writeReg_cmd_idle {s : State} (hb : s.busy = false) (v : Word) : writeReg v .cmd s = accept v s :=
  unlessBusy_idle hb

/-- A 1 in bit 1 or 2 clears DONE or OVR, and a 0 keeps it (10_state.md R44). -/
theorem writeStatus_eq (v : Word) (s : State) :
    writeStatus v s = { s with done := s.done && !v.getLsbD 1, ovr := s.ovr && !v.getLsbD 2 } := by
  simp [writeStatus, Bool.and_comm]

theorem write_reserved {s : State} (hr : s.rst = false) {off : Nat} (h1 : 0x0024 ≤ off) (h2 : off ≤ 0x0FFC)
    (h4 : off % 4 = 0) (v : Word) : portEvent (.write (s.params.base + off) 4 v) s = .next s := by
  rw [portEvent_write, access_at hr (by omega) h4, locate_reserved h1 h2, writeLoc]

/-! ## Reads -/

theorem windowAddr_eq (p : Params) (x : Buf) (w : Nat) : windowAddr p x w = p.base + windowBase x + 4 * w :=
  (Nat.add_assoc ..).symm

theorem readLoc_stable {l : Loc} (h : unstable l = false) (s : State) :
    readLoc l s = { s with replies := storedAt s l :: s.replies } := by
  simp [readLoc, h]

/-- While BUSY = 1 the reply is a draw, and the next draw is a fresh one (10_state.md R47; log 5). -/
theorem next_readLoc_unstable {l : Loc} (h : unstable l = true) (s : State) :
    (.next (readLoc l s) : Host.Outcome State Fault Refusal) =
      if s.busy = true then
        .next { s with replies := Config.busyRead s.draws :: s.replies, draws := s.draws + 1 }
      else .next { s with replies := storedAt s l :: s.replies } := by
  rw [readLoc, h, Bool.and_true, apply_ite Host.Outcome.next]

theorem read_reg_stable {s : State} (hr : s.rst = false) {r : Reg} (h : unstable (.reg r) = false) :
    portEvent (.read (regAddr s.params r) 4) s = .next { s with replies := storedReg s r :: s.replies } := by
  rw [read_reg hr, readLoc_stable h, storedAt]

theorem read_reg_unstable {s : State} (hr : s.rst = false) {r : Reg} (h : unstable (.reg r) = true) :
    portEvent (.read (regAddr s.params r) 4) s =
      if s.busy = true then
        .next { s with replies := Config.busyRead s.draws :: s.replies, draws := s.draws + 1 }
      else .next { s with replies := storedReg s r :: s.replies } := by
  rw [read_reg hr, next_readLoc_unstable h, storedAt]

theorem read_window_stable {s : State} (hr : s.rst = false) {x : Buf} {w : Nat} (hw : w < 1024)
    (h : unstable (.window x w) = false) :
    portEvent (.read (s.params.base + windowBase x + 4 * w) 4) s =
      .next { s with replies := windowWord (bufferOf s x) w :: s.replies } := by
  rw [← windowAddr_eq, read_window hr x hw, readLoc_stable h, storedAt]

theorem read_window_unstable {s : State} (hr : s.rst = false) {x : Buf} {w : Nat} (hw : w < 1024)
    (h : unstable (.window x w) = true) :
    portEvent (.read (s.params.base + windowBase x + 4 * w) 4) s =
      if s.busy = true then
        .next { s with replies := Config.busyRead s.draws :: s.replies, draws := s.draws + 1 }
      else .next { s with replies := windowWord (bufferOf s x) w :: s.replies } := by
  rw [← windowAddr_eq, read_window hr x hw, next_readLoc_unstable h, storedAt]

theorem read_reserved {s : State} (hr : s.rst = false) {off : Nat} (h1 : 0x0024 ≤ off) (h2 : off ≤ 0x0FFC)
    (h4 : off % 4 = 0) :
    portEvent (.read (s.params.base + off) 4) s = .next { s with replies := 0 :: s.replies } := by
  rw [portEvent_read, access_at hr (by omega) h4, locate_reserved h1 h2, readLoc_stable rfl, storedAt]

/-! ## The obligations about host accesses -/

/-- Settles O9: an idle engine accepts the word, a busy one only overruns. -/
theorem commandWriteAcceptedOrDiscarded : Obligations.CommandWriteAcceptedOrDiscarded := by
  unfold Obligations.CommandWriteAcceptedOrDiscarded
  intro s v hr
  refine ⟨fun hb => ⟨Config.hostTurns s.draws, s.draws + 1, ?_⟩, fun hb => write_reg_busy hr hb (by simp) v⟩
  rw [write_reg hr, writeReg_cmd_idle hb, accept]

/-- Settles O10: each operand register is written through `unlessBusy`, and so are the words of both operand windows. -/
theorem operandWritesStoreOrAreDiscarded : Obligations.OperandWritesStoreOrAreDiscarded := by
  unfold Obligations.OperandWritesStoreOrAreDiscarded
  refine fun s v hr => ⟨fun hb => ?_, fun hb => ?_⟩
  · simp only [write_reg hr, writeReg, unlessBusy_idle hb, and_self]
  · exact ⟨write_reg_busy hr hb (by simp) v, write_reg_busy hr hb (by simp) v, write_reg_busy hr hb (by simp) v,
      fun w hw => ⟨write_window_busy hr hb (by decide) hw v, write_window_busy hr hb (by decide) hw v⟩⟩

/-- Settles O12: each literal offset is a register's or a window's, and the location says whether its read is stable. -/
theorem readsReturnStoredOrUnspecified : Obligations.ReadsReturnStoredOrUnspecified := by
  unfold Obligations.ReadsReturnStoredOrUnspecified
  simp only [List.mem_cons, Prod.mk.injEq, List.not_mem_nil, or_false]
  refine ⟨fun s hr => ⟨?stable, ?unstable, ?windows, fun w hw => read_window_stable hr (x := .g) hw rfl⟩,
    fun p => ⟨rfl, rfl, rfl, rfl, rfl, rfl, rfl, rfl, rfl, fun w =>
      ⟨windowAddr_eq p .a w, windowAddr_eq p .g w, windowAddr_eq p .y w⟩⟩⟩
  case stable =>
    rintro off v (⟨rfl, rfl⟩ | ⟨rfl, rfl⟩ | ⟨rfl, rfl⟩ | ⟨rfl, rfl⟩ | ⟨rfl, rfl⟩ | ⟨rfl, rfl⟩ | ⟨rfl, rfl⟩)
    · exact read_reg_stable hr (r := .cfg) rfl
    · exact read_reg_stable hr (r := .ctrl) rfl
    · exact read_reg_stable hr (r := .cmd) rfl
    · exact read_reg_stable hr (r := .status) rfl
    · exact read_reg_stable hr (r := .arg) rfl
    · exact read_reg_stable hr (r := .aLen) rfl
    · exact read_reg_stable hr (r := .gLen) rfl
  case unstable =>
    rintro off v (⟨rfl, rfl⟩ | ⟨rfl, rfl⟩)
    · exact read_reg_unstable hr (r := .result) rfl
    · exact read_reg_unstable hr (r := .yLen) rfl
  case windows =>
    rintro off buf (⟨rfl, rfl⟩ | ⟨rfl, rfl⟩) w hw
    · exact read_window_unstable hr (x := .a) hw rfl
    · exact read_window_unstable hr (x := .y) hw rfl

/-- Settles O13: neither write looks at BUSY. -/
theorem statusAndControlWrites : Obligations.StatusAndControlWrites := by
  unfold Obligations.StatusAndControlWrites
  intro s v hr
  refine ⟨?_, write_reg hr .ctrl v⟩
  rw [write_reg hr, writeReg, writeStatus_eq]

/-- Settles O14: the locations that these addresses reach ignore a write. -/
theorem readOnlyAndReservedIgnoreWrites : Obligations.ReadOnlyAndReservedIgnoreWrites := by
  unfold Obligations.ReadOnlyAndReservedIgnoreWrites
  exact fun s v hr => ⟨write_reg hr .cfg v, write_reg hr .result v, write_reg hr .yLen v,
    fun w hw => write_window hr .y hw v,
    fun off h1 h2 h4 => ⟨write_reserved hr h1 h2 h4 v, read_reserved hr h1 h2 h4⟩⟩

end Sys2Proof.Machine
end

section
/-! SUPPORT. The fields of STATUS, CTRL and CFG, and the `irq` output (10_state.md R25, R26, R28, R37). -/

namespace Sys2Proof.Machine

/-! ## STATUS and CTRL -/

/-- STATUS is its three flags, packed, below the error code (10_state.md R28). -/
theorem statusWord_eq (s : State) :
    statusWord s = BitVec.ofNat 32 (2 ^ 8 * s.err.code.toNat + packBits [s.busy, s.done, s.ovr]) := by
  simp only [statusWord, packBits]
  congr 1
  omega

theorem packFlags_lt (b d o : Bool) : packBits [b, d, o] < 2 ^ 8 := by
  have hb := b.toNat_le
  have hd := d.toNat_le
  have ho := o.toNat_le
  simp only [packBits]
  omega

/-- The low byte of STATUS is the flags, and 0 above them (10_state.md R28, R35). -/
theorem getLsbD_statusWord (s : State) {j : Nat} (hj : j < 8) :
    (statusWord s).getLsbD j = bitAt [s.busy, s.done, s.ovr] j := by
  have h32 : j < 32 := by omega
  rw [statusWord_eq, BitVec.getLsbD_ofNat, Nat.testBit_two_pow_mul_add _ (packFlags_lt ..), if_pos hj,
    testBit_packBits]
  simp [h32]

theorem statusWord_div (s : State) : (statusWord s).toNat / 256 = s.err.code.toNat := by
  have hlow := packFlags_lt s.busy s.done s.ovr
  have hcode := s.err.code.isLt
  rw [statusWord_eq, BitVec.toNat_ofNat, Nat.mod_eq_of_lt (by omega)]
  omega

theorem toNat_ctrlWord (s : State) : (ctrlWord s).toNat = if s.ie then 1 else 0 := by
  unfold ctrlWord
  cases s.ie <;> rfl

theorem getLsbD_ctrlWord (s : State) : (ctrlWord s).getLsbD 0 = s.ie := by
  unfold ctrlWord
  cases s.ie <;> rfl

/-- Settles O15: the low byte of STATUS is the packed flags, and the rest is the code. -/
theorem statusAndControlLayout : Obligations.StatusAndControlLayout := by
  unfold Obligations.StatusAndControlLayout
  refine fun s => ⟨⟨getLsbD_statusWord s (by omega), getLsbD_statusWord s (by omega), getLsbD_statusWord s (by omega),
    ?_, fun b h3 h8 => ?_⟩, toNat_ctrlWord s⟩
  · rw [statusWord_div]
    cases s.err <;> rfl
  · rw [getLsbD_statusWord s h8, bitAt_of_length_le h3]

/-! ## CFG -/

theorem cfgWord_reference : cfgWord Params.reference = 0x00210040 := rfl

/-- Settles O16: each field is below 2^16, so neither reaches into the other. -/
theorem cfgReportsTheCapacities : Obligations.CfgReportsTheCapacities := by
  unfold Obligations.CfgReportsTheCapacities
  refine ⟨fun p => ?_, cfgWord_reference⟩
  have hlow := cfgField_lt p.lMax
  rw [toNat_cfgWord, ← cfgField, ← cfgField]
  constructor <;> omega

/-! ## The `irq` output -/

theorem irq_of_not_done {s : State} (h : s.done = false) : irq s = false := by rw [irq, h, Bool.and_false]

theorem irq_of_done {s : State} (h : s.done = true) : irq s = s.ie := by rw [irq, h, Bool.and_true]

theorem irq_of_not_ie {s : State} (h : s.ie = false) : irq s = false := by rw [irq, h, Bool.false_and]

/-- A completion sets DONE and keeps IE (60_exceptions.md R182, R188). -/
theorem irq_exec {i : Instr} {s t : State} (h : exec i s = .next t) : irq t = s.ie := by
  rw [exec_frame h]
  exact irq_of_done rfl

theorem irq_engineStep {s t : State} (h : engineStep s = .next t) : irq t = s.ie := by
  cases hd : decode s.cmd with
  | command i => exact irq_exec (engineStep_command hd ▸ h)
  | illegal why =>
    rw [engineStep_illegal hd] at h
    cases h
    exact irq_of_done rfl

theorem portEvent_rst_assert {s : State} (hr : s.rst = false) : portEvent (.rst true) s = .next (assertReset s) := by
  simp [portEvent, driveRst, hr]

/-- Settles O17: acceptance, acknowledgment and reset clear DONE, a CTRL write with bit 0 clear clears IE, and every
completion sets DONE. -/
theorem irqFollowsEnableAndDone : Obligations.IrqFollowsEnableAndDone := by
  unfold Obligations.IrqFollowsEnableAndDone
  refine ⟨fun s => ?layout, fun s t v _ hb h => ?accepted, fun s t v hv h => ?acknowledged,
    fun s t v hv h => ?disabled, fun s t hr h => ?reset, fun i s t h => irq_exec h,
    fun s t he h => irq_engineStep (step_engine he ▸ h)⟩
  case layout =>
    rw [getLsbD_ctrlWord, getLsbD_statusWord s (by omega)]
    rfl
  case accepted =>
    rw [write_reg_next h, writeReg_cmd_idle hb]
    exact irq_of_not_done rfl
  case acknowledged =>
    rw [write_reg_next h]
    exact irq_of_not_done (if_pos hv)
  case disabled =>
    rw [write_reg_next h]
    exact irq_of_not_ie hv
  case reset =>
    rw [portEvent_rst_assert hr] at h
    cases h
    exact irq_of_not_done rfl

end Sys2Proof.Machine
end

section
/-! SUPPORT. The reset state, whatever the parameters and the draw (10_state.md R38; 70_reset_and_hazards.md R210 to
R212). -/

namespace Sys2Proof.Machine

theorem registersReset_afterReset (p : Params) (n : Nat) : RegistersReset (State.afterReset p n) :=
  ⟨rfl, rfl, rfl, rfl, rfl, rfl, rfl, rfl, rfl, rfl, rfl⟩

/-- Each buffer bit is the draw's (log 4). -/
theorem bitAt_afterReset {p : Params} {n : Nat} {x : Buf} {j : Nat}
    (h : j < (bufferOf (State.afterReset p n) x).length) :
    bitAt (bufferOf (State.afterReset p n) x) j = Config.resetBit n x j := by
  cases x with
  | a | g | y => exact bitAt_drawnBuffer (h.trans_eq (length_drawnBuffer ..))

theorem bufferOf_assertReset (s : State) (x : Buf) :
    bufferOf (assertReset s) x = bufferOf (State.afterReset s.params s.draws) x := by
  cases x <;> rfl

theorem reference_legal : Params.reference.Legal :=
  ⟨by decide, by decide, by decide, by decide, Nat.mul_mod_right ..⟩

/-- Settles O18: the state that the assertion leaves does not depend on what the engine was doing. -/
theorem assertedResetGivesResetState : Obligations.AssertedResetGivesResetState := by
  unfold Obligations.AssertedResetGivesResetState
  intro s hr
  obtain ⟨hregs, hmem, hrst, hparams, hport, hreplies⟩ := assertReset_fields s
  refine ⟨assertReset s, portEvent_rst_assert hr, hrst, ⟨hregs, irq_of_not_done rfl⟩, hparams, hmem, fun x j hj => ?_,
    hport, hreplies, rfl⟩
  rw [bufferOf_assertReset] at hj ⊢
  exact bitAt_afterReset hj

/-- Settles O19: the reset state under the reference configuration, with draw 0. -/
theorem machineStartsInResetState : Obligations.MachineStartsInResetState := by
  unfold Obligations.MachineStartsInResetState
  exact ⟨⟨registersReset_afterReset .., irq_of_not_done rfl⟩, rfl, reset_memory, rfl, rfl, cfgWord_reference,
    0, fun _ _ => bitAt_afterReset⟩

/-- Settles O49: the reference configuration is legal, and the registers at 0 meet every bound. -/
theorem resetMeetsTheInvariant : Obligations.ResetMeetsTheInvariant := by
  unfold Obligations.ResetMeetsTheInvariant
  exact
    { legal := reference_legal
      memory := reset_memory
      yLen_le := Nat.zero_le _
      result_le := Nat.zero_le _
      busy_quiet := fun _ => ⟨rfl, rfl⟩
      rst_holds := fun _ => registersReset_afterReset .. }

end Sys2Proof.Machine
end

section
/-! SUPPORT. Which events take effect and what they leave alone, and the packing of the windows and the byte lanes
(20_memory.md R62 to R65, R70, R74). -/

namespace Sys2Proof.Machine

/-! ## Window words of an idle engine -/

/-- The reads of an idle engine are all specified (10_state.md R47). -/
theorem readLoc_idle {s : State} (hb : s.busy = false) (l : Loc) :
    readLoc l s = { s with replies := storedAt s l :: s.replies } := by
  simp [readLoc, hb]

/-- The bits of a window word are the buffer's where it has them, and 0 beyond (20_memory.md R63). -/
theorem getLsbD_windowWord_capacity (buf : Bits) (w : Nat) {b : Nat} (hb : b < 32) :
    (windowWord buf w).getLsbD b = if 32 * w + b < buf.length then bitAt buf (32 * w + b) else false := by
  rw [getLsbD_windowWord, if_pos hb]
  split
  · rfl
  · exact bitAt_of_length_le (by omega)

section IdleWrite
variable {s : State} (hb : s.busy = false) {x : Buf} (hx : x ≠ .y) (v : Word) (w : Nat)
include hb hx

theorem bufferOf_writeWindow (z : Buf) :
    bufferOf (writeWindow v w x s) z = if z = x then setWindowWord (bufferOf s x) w v else bufferOf s z := by
  cases x with
  | a | g => cases z <;> simp [writeWindow, unlessBusy_idle hb, bufferOf]
  | y => exact absurd rfl hx

/-- A window write reaches the operand buffers and no other field. -/
theorem writeWindow_frame :
    writeWindow v w x s = { s with a := (writeWindow v w x s).a, g := (writeWindow v w x s).g } := by
  cases x with
  | a | g => rw [writeWindow, unlessBusy_idle hb]
  | y => exact absurd rfl hx

end IdleWrite

/-- Settles O11: the word read is the buffer's 32 bits with 0 beyond its end, and the write sets those of them that
exist. -/
theorem windowPacking : Obligations.WindowPacking := by
  unfold Obligations.WindowPacking
  refine fun s x w _ hr hb hw => ⟨⟨windowWord (bufferOf s x) w, ?_, fun b => getLsbD_windowWord_capacity _ w⟩,
    fun v hx => ⟨writeWindow v w x s, write_window hr x hw v, ?_, fun j hj => ?_,
      fun z hz => by rw [bufferOf_writeWindow hb hx, if_neg hz], writeWindow_frame hb hx v w⟩⟩
  · rw [read_window hr x hw, readLoc_idle hb, storedAt]
  · rw [bufferOf_writeWindow hb hx, if_pos rfl, length_setWindowWord]
  · simp only [bufferOf_writeWindow hb hx, if_true, bitAt_setWindowWord, hj, true_and]

/-! ## Host events while a command runs -/

/-- A write during a run reaches the flags that the host owns, and nothing else (10_state.md R42 to R45). -/
theorem writeLoc_busy_frame {s : State} (hb : s.busy = true) (v : Word) (l : Loc) :
    writeLoc v l s =
      { s with done := (writeLoc v l s).done, ovr := (writeLoc v l s).ovr, ie := (writeLoc v l s).ie } := by
  rcases writeLoc_cases v l s with e | ⟨-, e⟩ | ⟨-, hidle, -⟩ | ⟨-, e⟩ | ⟨-, e⟩ | ⟨hidle, -⟩
  · rw [e]
  · rw [e, overrun]
  · simp [hb] at hidle
  · rw [e, writeStatus]
  · rw [e]
  · simp [hb] at hidle

/-- What a step during a run can change, where it is neither the completion nor an assertion of `rst`: the level of
`rst`, the flags that the host owns, and the model's own fields. -/
theorem step_busy_frame {s t : State} (hb : s.busy = true) (he : ¬ EngineMoves s)
    (hrst : ∀ rest, s.port ≠ .rst true :: rest) (h : step s = .next t) :
    t = { s with
      rst := t.rst, done := t.done, ovr := t.ovr, ie := t.ie, port := t.port, replies := t.replies
      hostTurns := t.hostTurns, draws := t.draws } := by
  rcases step_cases h with ⟨hmoves, -⟩ | ⟨-, e, rest, hp, hev⟩ | ⟨-, -, rfl⟩
  · exact absurd hmoves he
  · rcases portEvent_cases hev with ⟨addr, -, -, -, rfl⟩ | ⟨addr, v, -, -, -, rfl⟩ | ⟨level, rfl, rfl⟩
    · rw [readLoc_frame]; rfl
    · rw [writeLoc_busy_frame (s := takeTurn rest s) hb]; rfl
    · cases level with
      | true => exact absurd hp (hrst rest)
      | false => rfl
  · rfl

/-- Settles O53: the fields named are none of those that such a step can change. -/
theorem operandsFrozenWhileBusy : Obligations.OperandsFrozenWhileBusy := by
  unfold Obligations.OperandsFrozenWhileBusy
  intro s t hb he hrst h
  rw [step_busy_frame hb he hrst h]
  exact ⟨hb, rfl, rfl, rfl, rfl, rfl, rfl, rfl, rfl, rfl, rfl⟩

/-- Settles O8: the turn is the host's, or nobody's. -/
theorem oldestEventTakesEffectNext : Obligations.OldestEventTakesEffectNext := by
  unfold Obligations.OldestEventTakesEffectNext
  exact fun s he => ⟨fun e rest hp => step_host he hp, step_idle he⟩

/-! ## Refused accesses -/

theorem access_asserted {addr size : Nat} {f : Loc → State → State} {s : State} (hr : s.rst = true) :
    access addr size f s = .refused .accessDuringReset := by
  rw [access, if_pos hr]

theorem access_outside {addr size : Nat} {f : Loc → State → State} {s : State} (hr : s.rst = false)
    (ha : ¬ s.params.InAperture addr) : access addr size f s = .refused .outsideAperture := by
  rw [access, if_neg (by simp [hr]), if_pos ha]

theorem access_misaligned {addr size : Nat} {f : Loc → State → State} {s : State} (hr : s.rst = false)
    (ha : s.params.InAperture addr) (hn : ¬ s.params.Aligned addr size) :
    access addr size f s = .refused .notAlignedWord := by
  rw [access, if_neg (by simp [hr]), if_neg (not_not.mpr ha), if_pos hn]

/-- Reads and writes are accesses that differ in what they do at the location only. -/
theorem portEvent_eq_access {e : PortEvent} {addr size : Nat}
    (h : e = .read addr size ∨ ∃ v, e = .write addr size v) : ∃ f, ∀ s, portEvent e s = access addr size f s := by
  rcases h with rfl | ⟨v, rfl⟩
  · exact ⟨readLoc, portEvent_read addr size⟩
  · exact ⟨writeLoc v, portEvent_write addr size v⟩

/-- Settles O20: the port refuses an access before it looks at what it would do. -/
theorem onlyAdmittedAccessesTakeEffect : Obligations.OnlyAdmittedAccessesTakeEffect := by
  unfold Obligations.OnlyAdmittedAccessesTakeEffect
  intro s addr size e he
  obtain ⟨f, hf⟩ := portEvent_eq_access he
  rw [hf]
  exact ⟨access_asserted, access_outside, fun hr h1 h2 => access_misaligned hr ⟨h1, h2⟩,
    fun hr h1 h2 hsize h4 => ⟨_, access_admitted hr ⟨⟨h1, h2⟩, hsize, h4⟩⟩⟩

end Sys2Proof.Machine

/-! ## Byte lanes -/

namespace Sys2Proof

theorem toNat_lane (v : Word) (i : Nat) : (lane v i).toNat = v.toNat / 2 ^ (8 * i) % 2 ^ 8 := by
  rw [lane, BitVec.extractLsb'_toNat, Nat.shiftRight_eq_div_pow]

theorem getLsbD_lane (v : Word) (i : Nat) {b : Nat} (hb : b < 8) : (lane v i).getLsbD b = v.getLsbD (8 * i + b) := by
  simp [lane, hb]

/-- The lanes are the digits of the word in base 2^8, the low one first. -/
theorem ofLanes_lane (v : Word) : ofLanes (lane v 0) (lane v 1) (lane v 2) (lane v 3) = v := by
  apply BitVec.eq_of_toNat_eq
  simp only [ofLanes, toNat_lane, BitVec.toNat_ofNat]
  have hv := v.isLt
  omega

theorem decodeLanes_of_length_ne {bs : List Byte} (h : bs.length ≠ 4) : decodeLanes bs = .illegal .notOneWord := by
  unfold decodeLanes
  split
  · exact absurd rfl h
  · rfl

/-- Settles O5: the four lanes make up the word they were cut from. -/
theorem lanesCarryTheWord : Obligations.LanesCarryTheWord := by
  unfold Obligations.LanesCarryTheWord
  refine fun v => ⟨?_, fun i _ b hb => getLsbD_lane v i hb, fun bs => decodeLanes_of_length_ne⟩
  rw [lanes, decodeLanes, ofLanes_lane]

end Sys2Proof
end

section
/-! SUPPORT. The decoder by the arithmetic of the word: its fields, its two kinds of answer, and the round trip
(30_encoding.md R90 to R95). -/

namespace Sys2Proof

theorem toNat_opField (c : Word) : (opField c).toNat = c.toNat % 16 := by
  rw [opField, BitVec.extractLsb'_toNat, Nat.shiftRight_zero]

theorem toNat_rsvField (c : Word) : (rsvField c).toNat = c.toNat / 16 := by
  have hc := c.isLt
  rw [rsvField, BitVec.extractLsb'_toNat, Nat.shiftRight_eq_div_pow]
  omega

theorem rsvField_eq_zero_iff (c : Word) : rsvField c = 0 ↔ c.toNat / 16 = 0 := by
  rw [← toNat_rsvField, ← BitVec.toNat_inj]
  rfl

/-- A command's word is its OP value, one of 1 to 5 (30_encoding.md R93). -/
theorem toNat_encode_bounds (i : Instr) : 1 ≤ (encode i).toNat ∧ (encode i).toNat ≤ 5 := by
  cases i <;> decide

theorem encodingFields (i : Instr) : Laws.EncodingFields.Statement i := by
  cases i with
  | crcRem => exact Laws.EncodingFields.crcRem
  | crcVerify => exact Laws.EncodingFields.crcVerify
  | hamRbits => exact Laws.EncodingFields.hamRbits
  | hamEnc => exact Laws.EncodingFields.hamEnc
  | hamDec => exact Laws.EncodingFields.hamDec

theorem decode_encode (i : Instr) : decode (encode i) = .command i := by
  obtain ⟨-, -, -, hdecode⟩ := encodingFields i
  exact hdecode

/-- The words that select no operation, by arithmetic on the whole word (30_encoding.md R95). -/
def ReservedWord (c : Word) : Prop := c.toNat / 16 ≠ 0 ∨ c.toNat % 16 = 0 ∨ 6 ≤ c.toNat % 16

theorem not_reservedWord_encode (i : Instr) : ¬ ReservedWord (encode i) := by
  have hbounds := toNat_encode_bounds i
  unfold ReservedWord
  omega

/-- The decoder's whole answer: a word is a command's own word, or a reserved one and illegal (30_encoding.md R94). -/
theorem eq_encode_or_illegal (c : Word) :
    (∃ i, c = encode i) ∨ (ReservedWord c ∧ ∃ why, decode c = .illegal why) := by
  by_cases hrsv : rsvField c = 0
  · have hdiv := (rsvField_eq_zero_iff c).mp hrsv
    have word : ∀ i, c.toNat % 16 = (encode i).toNat → c = encode i := fun i h => BitVec.eq_of_toNat_eq (by omega)
    unfold decode
    rw [if_neg (not_not.mpr hrsv), toNat_opField]
    split
    · exact .inl ⟨.crcRem, word _ ‹_›⟩
    · exact .inl ⟨.crcVerify, word _ ‹_›⟩
    · exact .inl ⟨.hamRbits, word _ ‹_›⟩
    · exact .inl ⟨.hamEnc, word _ ‹_›⟩
    · exact .inl ⟨.hamDec, word _ ‹_›⟩
    · exact .inr ⟨by simp only [ReservedWord, imp_false] at *; omega, .reservedOp, rfl⟩
  · exact .inr ⟨.inl (mt (rsvField_eq_zero_iff c).mpr hrsv), .reservedBits, if_pos hrsv⟩

/-- Settles O1: each word is closed, and the decoder evaluates it. -/
theorem commandWordsDecode : Obligations.CommandWordsDecode := by
  unfold Obligations.CommandWordsDecode
  decide

/-- Settles O2: the round trip, command by command. -/
theorem decodeInvertsEncode : Obligations.DecodeInvertsEncode := by
  unfold Obligations.DecodeInvertsEncode
  exact fun i _ => decode_encode i

/-- Settles O3: a word that is no command's own is illegal. -/
theorem decodedWordIsTheEncodedWord : Obligations.DecodedWordIsTheEncodedWord := by
  unfold Obligations.DecodedWordIsTheEncodedWord
  intro c i hd
  rcases eq_encode_or_illegal c with ⟨j, rfl⟩ | ⟨-, why, hill⟩
  · rw [decode_encode] at hd
    cases hd
    rfl
  · cases hd.symm.trans hill

/-- Settles O4: the words of the commands are not reserved, and all other words are reserved and illegal. -/
theorem illegalWordsAreTheReservedOnes : Obligations.IllegalWordsAreTheReservedOnes := by
  unfold Obligations.IllegalWordsAreTheReservedOnes
  intro c
  rw [← ReservedWord]
  rcases eq_encode_or_illegal c with ⟨i, rfl⟩ | ⟨hres, hill⟩
  · simp [decode_encode, not_reservedWord_encode]
  · exact iff_of_true hill hres

end Sys2Proof

namespace Sys2Proof.Machine

/-- Settles O7: the engine's step on a word that does not decode is the completion with ILLEGAL_COMMAND. -/
theorem illegalCommandChangesOnlyStatus : Obligations.IllegalCommandChangesOnlyStatus := by
  unfold Obligations.IllegalCommandChangesOnlyStatus
  intro s why he hd
  rw [step_engine he, engineStep_illegal hd, complete]

end Sys2Proof.Machine
end

section
/-! SUPPORT. What one step does with a waiting access of a host's statement, and runs of such steps (30_encoding.md R96
to R102; 20_memory.md R63). -/

namespace Sys2Proof.Machine

/-! ## One waiting access -/

theorem not_engineMoves_of_idle {s : State} (hb : s.busy = false) : ¬ EngineMoves s :=
  fun ⟨hbusy, _⟩ => by simp [hb] at hbusy

section Steps
variable {s : State} (he : ¬ EngineMoves s) (hr : s.rst = false)
include he hr

theorem step_write_reg {r : Reg} {v : Word} {rest : List PortEvent}
    (hp : s.port = .write (regAddr s.params r) 4 v :: rest) : step s = .next (writeReg v r (takeTurn rest s)) := by
  rw [step_host he hp]
  exact write_reg (s := takeTurn rest s) hr r v

theorem step_write_window {x : Buf} {w : Nat} {v : Word} {rest : List PortEvent} (hw : w < 1024)
    (hp : s.port = .write (windowAddr s.params x w) 4 v :: rest) :
    step s = .next (writeWindow v w x (takeTurn rest s)) := by
  rw [step_host he hp]
  exact write_window (s := takeTurn rest s) hr x hw v

theorem step_read_reg {r : Reg} {rest : List PortEvent} (hp : s.port = .read (regAddr s.params r) 4 :: rest) :
    step s = .next (readLoc (.reg r) (takeTurn rest s)) := by
  rw [step_host he hp]
  exact read_reg (s := takeTurn rest s) hr r

theorem step_read_window {x : Buf} {w : Nat} {rest : List PortEvent} (hw : w < 1024)
    (hp : s.port = .read (windowAddr s.params x w) 4 :: rest) :
    step s = .next (readLoc (.window x w) (takeTurn rest s)) := by
  rw [step_host he hp]
  exact read_window (s := takeTurn rest s) hr x hw

end Steps

/-- A waiting read has taken effect and returned `v`. -/
def takeReply (v : Word) (rest : List PortEvent) (s : State) : State :=
  { takeTurn rest s with replies := v :: s.replies }

@[simp] theorem bufferOf_takeTurn (rest : List PortEvent) (s : State) (x : Buf) :
    bufferOf (takeTurn rest s) x = bufferOf s x := by cases x <;> rfl

@[simp] theorem takeReply_replies (v : Word) (rest : List PortEvent) (s : State) :
    (takeReply v rest s).replies = v :: s.replies := rfl

@[simp] theorem takeReply_hostTurns (v : Word) (rest : List PortEvent) (s : State) :
    (takeReply v rest s).hostTurns = s.hostTurns - 1 := rfl

@[simp] theorem bufferOf_takeReply (v : Word) (rest : List PortEvent) (s : State) (x : Buf) :
    bufferOf (takeReply v rest s) x = bufferOf s x := by cases x <;> rfl

@[simp] theorem storedAt_takeTurn (rest : List PortEvent) (s : State) (l : Loc) :
    storedAt (takeTurn rest s) l = storedAt s l := by
  cases l with
  | reg r => cases r <;> rfl
  | reserved => rfl
  | window x w => simp [storedAt]

/-- A specified read: of an idle block, or at a stable location (10_state.md R47). -/
theorem readLoc_takeTurn {s : State} {l : Loc} (h : (s.busy && unstable l) = false) (rest : List PortEvent) :
    readLoc l (takeTurn rest s) = takeReply (storedAt s l) rest s := by
  rw [readLoc, takeTurn_busy, h, if_neg Bool.false_ne_true, storedAt_takeTurn]
  rfl

/-! ## Window words of a string -/

theorem length_bufferOf_le {s : State} (hi : Inv s) (x : Buf) : (bufferOf s x).length ≤ 32768 := by
  obtain ⟨ha, hg, hy⟩ := hi.memory
  have hlegal := hi.legal
  cases x <;> simp only [bufferOf] <;> omega

/-- The words of a string that fits a buffer lie in its window (20_memory.md R63). -/
theorem word_lt_of_fits {s : State} (hi : Inv s) {x : Buf} {len : Nat} (hlen : len ≤ (bufferOf s x).length) :
    ∀ w ∈ List.range (wordsFor len), w < 1024 := by
  have hcap := length_bufferOf_le hi x
  intro w hw
  have hw := List.mem_range.mp hw
  unfold wordsFor at hw
  omega

/-- The string made of a buffer's words is the buffer's first bits (30_encoding.md R102). -/
theorem rdbitsString_windowWords (buf : Bits) (len : Nat) :
    rdbitsString len ((List.range (wordsFor len)).map (windowWord buf)) = prefixBits len buf := by
  apply bits_ext
  · simp [rdbitsString]
  · intro j hj
    have hj' : j < len := by simpa [rdbitsString] using hj
    have hword : j / 32 < wordsFor len := by unfold wordsFor; omega
    have hbit : j % 32 < 32 := Nat.mod_lt _ (by decide)
    calc bitAt (rdbitsString len ((List.range (wordsFor len)).map (windowWord buf))) j
        = (windowWord buf (j / 32)).getLsbD (j % 32) := by
          rw [bitAt_eq_getElem hj]
          simp [rdbitsString, List.getD_eq_getElem?_getD, hword]
      _ = bitAt (prefixBits len buf) j := by
          rw [getLsbD_windowWord, if_pos hbit, Nat.div_add_mod, bitAt_prefixBits, if_pos hj']

/-! ## Runs -/

theorem run_step {n : Nat} {s t : State} (hs : step s = .next t) :
    Host.Core.run Sys2Proof.core (n + 1) s = Host.Core.run Sys2Proof.core n t := by
  have hcore : Sys2Proof.core.step s = .next t := hs
  simp only [Host.Core.run, hcore]

/-- The reads of the words `ws` of window `x` have taken effect on an idle block. -/
def readWords (x : Buf) (ws : List Nat) (s : State) : State :=
  { s with
    port := [], replies := (ws.map (windowWord (bufferOf s x))).reverse ++ s.replies
    hostTurns := s.hostTurns - ws.length }

theorem readWords_nil {x : Buf} {s : State} (hp : s.port = []) : readWords x [] s = s := by
  cases s
  cases hp
  rfl

theorem readWords_cons (x : Buf) (w : Nat) (ws : List Nat) (rest : List PortEvent) (s : State) :
    readWords x ws (takeReply (windowWord (bufferOf s x) w) rest s) = readWords x (w :: ws) s := by
  simp only [readWords, bufferOf_takeReply, takeReply_replies, takeReply_hostTurns, List.map_cons, List.reverse_cons,
    List.append_assoc, List.singleton_append, List.length_cons, Nat.sub_sub, Nat.add_comm 1]
  rfl

/-- The events that read the words `ws` of window `x`. -/
def wordReads (p : Params) (x : Buf) (ws : List Nat) : List PortEvent := ws.map fun w => .read (windowAddr p x w) 4

/-- An idle block takes a waiting window read at its next step. -/
theorem step_wordReads {s : State} (hb : s.busy = false) (hr : s.rst = false) {x : Buf} {w : Nat} {ws : List Nat}
    (hw : w < 1024) (hp : s.port = wordReads s.params x (w :: ws)) :
    step s = .next (takeReply (windowWord (bufferOf s x) w) (wordReads s.params x ws) s) := by
  rw [step_read_window (not_engineMoves_of_idle hb) hr hw hp, readLoc_takeTurn (by simp [hb]), storedAt, wordReads]

theorem run_wordReads {x : Buf} {ws : List Nat} (hws : ∀ w ∈ ws, w < 1024) {s : State} (hb : s.busy = false)
    (hr : s.rst = false) (hp : s.port = wordReads s.params x ws) :
    Host.Core.run Sys2Proof.core ws.length s = .next (readWords x ws s) := by
  induction ws generalizing s with
  | nil => rw [readWords_nil hp]; rfl
  | cons w ws ih =>
    obtain ⟨hw, hws⟩ := List.forall_mem_cons.mp hws
    rw [← readWords_cons]
    exact (run_step (step_wordReads hb hr hw hp)).trans (ih hws hb hr rfl)

/-- Settles O58: one step reads the length, and the words after it hold the buffer's first bits. -/
theorem rdbitsReadsTheString : Obligations.RdbitsReadsTheString := by
  unfold Obligations.RdbitsReadsTheString
  intro s x len tmp hi hb hr hlen hfits hp
  have hport : s.port = .read (regAddr s.params (lengthReg x.buf)) 4 ::
      wordReads s.params x.buf (List.range (wordsFor len)) := by
    simpa [programEvents, rdbitsStmts, stmtEvents, wordReads, ← hlen] using hp
  have hfirst := step_read_reg (not_engineMoves_of_idle hb) hr hport
  rw [readLoc_takeTurn (by simp [hb]), storedAt] at hfirst
  have hwords := run_wordReads (word_lt_of_fits hi hfits)
    (s := takeReply (storedReg s (lengthReg x.buf)) (wordReads s.params x.buf (List.range (wordsFor len))) s) hb hr rfl
  rw [List.length_range] at hwords
  rw [Nat.add_comm 1]
  refine ⟨_, (List.range (wordsFor len)).map (windowWord (bufferOf s x.buf)),
    (run_step hfirst).trans hwords, ?_, by simp, rdbitsString_windowWords _ _, rfl⟩
  simp [readWords]

end Sys2Proof.Machine
end

section
/-! SUPPORT. The writes of a host: loading a string (30_encoding.md R99), commands and acknowledgments (R98,
R101). -/

namespace Sys2Proof.Machine

/-! ## Window writes -/

/-- `s` with the contents of buffer `x` replaced. -/
def setBuffer (b : Bits) (x : Buf) (s : State) : State :=
  { s with a := if x = .a then b else s.a, g := if x = .g then b else s.g, y := if x = .y then b else s.y }

@[simp] theorem bufferOf_setBuffer (b : Bits) (x : Buf) (s : State) : bufferOf (setBuffer b x s) x = b := by
  cases x <;> rfl

theorem writeWindow_idle {s : State} (hb : s.busy = false) {x : Buf} (hx : x ≠ .y) (v : Word) (w : Nat) :
    writeWindow v w x s = setBuffer (setWindowWord (bufferOf s x) w v) x s := by
  cases x with
  | a | g => simp [writeWindow, unlessBusy_idle hb, setBuffer, bufferOf]
  | y => exact absurd rfl hx

/-- The words `ws`, written one after the other, each to its place (20_memory.md R63). -/
def setWindowWords (v : Nat → Word) (ws : List Nat) (buf : Bits) : Bits :=
  ws.foldl (fun acc w => setWindowWord acc w (v w)) buf

theorem setWindowWords_cons (v : Nat → Word) (w : Nat) (ws : List Nat) (buf : Bits) :
    setWindowWords v (w :: ws) buf = setWindowWords v ws (setWindowWord buf w (v w)) := by
  rw [setWindowWords, List.foldl_cons, ← setWindowWords]

theorem bitAt_setWindowWords (v : Nat → Word) (ws : List Nat) (buf : Bits) (j : Nat) :
    bitAt (setWindowWords v ws buf) j =
      if j < buf.length ∧ j / 32 ∈ ws then (v (j / 32)).getLsbD (j % 32) else bitAt buf j := by
  induction ws generalizing buf with
  | nil => simp [setWindowWords]
  | cons w ws ih =>
    simp only [setWindowWords_cons, ih, length_setWindowWord, bitAt_setWindowWord, List.mem_cons]
    by_cases hj : j < buf.length
    · by_cases hw : j / 32 = w
      · subst hw
        by_cases hws : j / 32 ∈ ws <;> simp [hj, hws]
      · simp [hj, hw]
    · simp [hj]

/-- The words of a string put its bits in their places, and 0 in the rest of its last word (30_encoding.md R99). -/
theorem bitAt_setWindowWords_string (bits buf : Bits) (j : Nat) :
    bitAt (setWindowWords (windowWord bits) (List.range (wordsFor bits.length)) buf) j =
      if j < buf.length ∧ j < 32 * wordsFor bits.length then bitAt bits j else bitAt buf j := by
  have hbit : j % 32 < 32 := Nat.mod_lt _ (by decide)
  have hword : j / 32 < wordsFor bits.length ↔ j < 32 * wordsFor bits.length := by omega
  simp only [bitAt_setWindowWords, getLsbD_windowWord, if_pos hbit, Nat.div_add_mod, List.mem_range, hword]

/-- The events that write `v w` to each word `w` of `ws` in window `x`. -/
def wordWrites (p : Params) (x : Buf) (v : Nat → Word) (ws : List Nat) : List PortEvent :=
  ws.map fun w => .write (windowAddr p x w) 4 (v w)

/-- The writes of the words `ws` of window `x` have taken effect on an idle block. -/
def writeWords (x : Buf) (v : Nat → Word) (ws : List Nat) (s : State) : State :=
  { setBuffer (setWindowWords v ws (bufferOf s x)) x s with port := [], hostTurns := s.hostTurns - ws.length }

theorem writeWords_nil {x : Buf} {v : Nat → Word} {s : State} (hp : s.port = []) : writeWords x v [] s = s := by
  cases s
  cases hp
  cases x <;> rfl

theorem writeWords_cons (x : Buf) (v : Nat → Word) (w : Nat) (ws : List Nat) (rest : List PortEvent) (s : State) :
    writeWords x v ws (setBuffer (setWindowWord (bufferOf s x) w (v w)) x (takeTurn rest s)) =
      writeWords x v (w :: ws) s := by
  simp only [writeWords, setWindowWords_cons, bufferOf_setBuffer]
  cases x <;> simp [setBuffer, Nat.sub_sub, Nat.add_comm]

theorem bufferOf_writeWords (x z : Buf) (v : Nat → Word) (ws : List Nat) (s : State) :
    bufferOf (writeWords x v ws s) z = if z = x then setWindowWords v ws (bufferOf s x) else bufferOf s z := by
  cases x <;> cases z <;> rfl

theorem run_wordWrites {x : Buf} (hx : x ≠ .y) (v : Nat → Word) {ws : List Nat} (hws : ∀ w ∈ ws, w < 1024)
    {s : State} (hb : s.busy = false) (hr : s.rst = false) (hp : s.port = wordWrites s.params x v ws) :
    Host.Core.run Sys2Proof.core ws.length s = .next (writeWords x v ws s) := by
  induction ws generalizing s with
  | nil => rw [writeWords_nil hp]; rfl
  | cons w ws ih =>
    obtain ⟨hw, hws⟩ := List.forall_mem_cons.mp hws
    have hs := step_write_window (rest := wordWrites s.params x v ws) (not_engineMoves_of_idle hb) hr hw hp
    rw [writeWindow_idle (s := takeTurn _ s) hb hx, bufferOf_takeTurn] at hs
    rw [← writeWords_cons]
    exact (run_step hs).trans (ih hws hb hr rfl)

/-- `s` with the length register of buffer `x` replaced. -/
def setLength (v : Word) (x : Buf) (s : State) : State :=
  { s with
    aLen := if x = .a then v else s.aLen
    gLen := if x = .g then v else s.gLen
    yLen := if x = .y then v else s.yLen }

@[simp] theorem bufferOf_setLength (v : Word) (x z : Buf) (s : State) :
    bufferOf (setLength v x s) z = bufferOf s z := by cases z <;> rfl

theorem writeReg_length_idle {s : State} (hb : s.busy = false) {x : Buf} (hx : x ≠ .y) (v : Word) :
    writeReg v (lengthReg x) s = setLength v x s := by
  cases x with
  | a | g => simp [lengthReg, writeReg, unlessBusy_idle hb, setLength]
  | y => exact absurd rfl hx

/-! ## Loading a string -/

/-- The first write of `ldbits` is the length's, and the others are the words' (30_encoding.md R99). -/
theorem programEvents_ldbitsStmts (p : Params) (temps : List (Nat × Word)) (x : Buf) (bits : Bits) :
    programEvents p temps (ldbitsStmts x bits) =
      .write (regAddr p (lengthReg x)) 4 (BitVec.ofNat 32 bits.length) ::
        wordWrites p x (windowWord bits) (List.range (wordsFor bits.length)) := by
  simp only [programEvents, ldbitsStmts, List.flatMap_cons, stmtEvents, List.flatMap_map, evalWord_lit, evalWord_word,
    wordWrites, ← List.map_eq_flatMap]
  rfl

/-- What `ldbits` of `bits` leaves of an idle block. -/
def loadBits (x : Buf) (bits : Bits) (s : State) : State :=
  writeWords x (windowWord bits) (List.range (wordsFor bits.length))
    (takeTurn [] (setLength (BitVec.ofNat 32 bits.length) x s))

theorem run_ldbits {s : State} (hi : Inv s) (hb : s.busy = false) (hr : s.rst = false) {x : Buf} (hx : x ≠ .y)
    {bits : Bits} (hfits : bits.length ≤ (bufferOf s x).length)
    (hp : s.port = programEvents s.params [] (ldbitsStmts x bits)) :
    Host.Core.run Sys2Proof.core (1 + wordsFor bits.length) s = .next (loadBits x bits s) := by
  rw [programEvents_ldbitsStmts] at hp
  have hfirst := step_write_reg (not_engineMoves_of_idle hb) hr hp
  rw [writeReg_length_idle (s := takeTurn _ s) hb hx] at hfirst
  have hwords := run_wordWrites hx (windowWord bits) (word_lt_of_fits hi hfits)
    (s := setLength (BitVec.ofNat 32 bits.length) x
      (takeTurn (wordWrites s.params x (windowWord bits) (List.range (wordsFor bits.length))) s)) hb hr rfl
  rw [List.length_range] at hwords
  rw [Nat.add_comm 1]
  exact (run_step hfirst).trans hwords

theorem bufferOf_loadBits (x z : Buf) (bits : Bits) (s : State) :
    bufferOf (loadBits x bits s) z =
      if z = x then setWindowWords (windowWord bits) (List.range (wordsFor bits.length)) (bufferOf s x)
      else bufferOf s z := by
  simp only [loadBits, bufferOf_writeWords, bufferOf_takeTurn, bufferOf_setLength]

theorem storedReg_loadBits (x z : Buf) (bits : Bits) (s : State) :
    storedReg (loadBits x bits s) (lengthReg z) =
      if z = x then BitVec.ofNat 32 bits.length else storedReg s (lengthReg z) := by
  cases x <;> cases z <;> rfl

/-- Settles O56: one step writes the length, which fits its register, and the words after it put the string's bits in
their places. -/
theorem ldbitsLoadsTheString : Obligations.LdbitsLoadsTheString := by
  unfold Obligations.LdbitsLoadsTheString
  intro s x bits hi hb hr hx hfits hp
  have hlen : bits.length < 2 ^ 32 := by
    have hcap := length_bufferOf_le hi x
    omega
  have hbits : ∀ j, bitAt (bufferOf (loadBits x bits s) x) j =
      if j < (bufferOf s x).length ∧ j < 32 * wordsFor bits.length then bitAt bits j else bitAt (bufferOf s x) j := by
    intro j
    rw [bufferOf_loadBits, if_pos rfl, bitAt_setWindowWords_string]
  refine ⟨loadBits x bits s, run_ldbits hi hb hr hx hfits hp, rfl, ?length, ?string, fun j h1 h2 => ?padding,
    fun j h => ?beyond, fun z hz => ?others, ?frame, fun z hz => ?lengths⟩
  case length => rw [storedReg_loadBits, if_pos rfl, BitVec.toNat_ofNat, Nat.mod_eq_of_lt hlen]
  case string =>
    have hwords : bits.length ≤ 32 * wordsFor bits.length := by unfold wordsFor; omega
    calc prefixBits bits.length (bufferOf (loadBits x bits s) x)
        = prefixBits bits.length bits := prefixBits_congr fun j hj => by rw [hbits, if_pos (by omega)]
      _ = bits := prefixBits_length bits
  case padding =>
    rw [hbits]
    split
    · exact bitAt_of_length_le h1
    · exact bitAt_of_length_le (by omega)
  case beyond => rw [hbits, if_neg (by omega)]
  case others => rw [bufferOf_loadBits, if_neg hz]
  case frame =>
    cases x with
    | a | g => rfl
    | y => exact absurd rfl hx
  case lengths => rw [storedReg_loadBits, if_neg hz]

/-! ## Commands and acknowledgments -/

theorem programEvents_cmdStmts (p : Params) (i : Instr) :
    programEvents p [] (cmdStmts i) = [.write (regAddr p .cmd) 4 (encode i)] := by
  simp [programEvents, cmdStmts, stmtEvents]

theorem programEvents_ackStmts (p : Params) : programEvents p [] ackStmts = [.write (regAddr p .status) 4 2] := rfl

theorem programEvents_ackovrStmts (p : Params) :
    programEvents p [] ackovrStmts = [.write (regAddr p .status) 4 4] := rfl

theorem step_write_status {s : State} {v : Word} (he : ¬ EngineMoves s) (hr : s.rst = false)
    (hp : s.port = [.write (regAddr s.params .status) 4 v]) : step s = .next (writeStatus v (takeTurn [] s)) :=
  step_write_reg he hr hp

/-- Settles O59: each statement is one write, and a write of STATUS clears the flags whose bits are 1. -/
theorem commandAndAcknowledgeStatements : Obligations.CommandAndAcknowledgeStatements := by
  unfold Obligations.CommandAndAcknowledgeStatements
  refine ⟨fun p i => ⟨programEvents_cmdStmts p i, programEvents_ackStmts p, programEvents_ackovrStmts p⟩,
    fun s hr he => ⟨fun hp => ?_, fun hp => ?_⟩⟩
  · rw [programEvents_ackStmts] at hp
    exact ⟨_, step_write_status he hr hp, rfl, irq_of_not_done rfl, rfl, rfl, rfl⟩
  · rw [programEvents_ackovrStmts] at hp
    exact ⟨_, step_write_status he hr hp, rfl, rfl, rfl, rfl⟩

end Sys2Proof.Machine
end

section
/-! SUPPORT. A host beside the block: runs of its steps, and `rdbits` at the length just read (30_encoding.md R102). -/

namespace Sys2Proof.Machine

/-! ## Runs of a host -/

/-- After some number of steps the host stands at `h'`. -/
def HostReaches (h h' : HostRun) : Prop := ∃ k, hostRunFor k h = .next h'

theorem HostReaches.refl (h : HostRun) : HostReaches h h := ⟨0, rfl⟩

theorem HostReaches.of_step {h h' h'' : HostRun} (hs : hostStep h = .next h') (hreach : HostReaches h' h'') :
    HostReaches h h'' := by
  obtain ⟨k, hk⟩ := hreach
  exact ⟨k + 1, (hostRunFor_step hs).trans hk⟩

theorem HostReaches.single {h h' : HostRun} (hs : hostStep h = .next h') : HostReaches h h' := .of_step hs (.refl h')

theorem HostReaches.trans {h h' h'' : HostRun} (h₁ : HostReaches h h') (h₂ : HostReaches h' h'') :
    HostReaches h h'' := by
  obtain ⟨k, hk⟩ := h₁
  induction k generalizing h with
  | zero => cases hk; exact h₂
  | succ k ih =>
    cases hs : hostStep h with
    | next g => exact .of_step hs (ih (hostRunFor_step hs ▸ hk))
    | fault r => simp [hostRunFor, hs] at hk
    | refused r => simp [hostRunFor, hs] at hk

/-- Statement `i` of a block of statements stands `i` places behind the block's first. -/
theorem getElem?_block {before mid after : List Stmt} {i : Nat} {st : Stmt} (h : mid[i]? = some st) :
    (before ++ mid ++ after)[before.length + i]? = some st := by
  obtain ⟨hi, -⟩ := List.getElem?_eq_some_iff.mp h
  rw [List.append_assoc, List.getElem?_append_right (by omega), Nat.add_sub_cancel_left,
    List.getElem?_append_left hi, h]

/-- A statement with no access only moves the host on, and takes a host turn (log 6). -/
theorem hostStep_silent {h : HostRun} {st : Stmt} (hp : h.block.port = []) (hd : completionDue h.block = false)
    (hst : h.prog[h.hpc]? = some st) (hev : stmtEvents h.block.params h.temps st = [])
    (hfills : stmtFills h.temps st = []) :
    hostStep h =
      .next { h with
        hpc := nextIndex h st, block := { h.block with hostTurns := h.block.hostTurns - 1 } } := by
  rw [hostStep_issue hp hd hst, hev, hfills, List.append_nil, if_pos rfl, ← hp]

/-- The host has received `v` for its oldest waiting temporary. -/
def receive (t : Nat) (v : Word) (rest : List Nat) (events : List PortEvent) (h : HostRun) : HostRun :=
  { h with temps := (t, v) :: h.temps, awaiting := rest, block := takeReply v events h.block }

theorem hostStep_receive {h : HostRun} {t : Nat} {v : Word} {rest : List Nat} {events : List PortEvent}
    (hp : h.block.port ≠ []) (ha : h.awaiting = t :: rest) (hs : step h.block = .next (takeReply v events h.block)) :
    hostStep h = .next (receive t v rest events h) := by
  rw [hostStep_block hp hs, hostReceive_reply ha (takeReply_replies _ _ _)]
  rfl

/-- The read of a register has been handed to the port. -/
def issueRead (r : Reg) (t : Nat) (h : HostRun) : HostRun :=
  { h with hpc := h.hpc + 1, awaiting := [t], block := { h.block with port := [.read (regAddr h.block.params r) 4] } }

theorem hostStep_rd {h : HostRun} {r : Reg} {t : Nat} (hp : h.block.port = []) (hd : completionDue h.block = false)
    (ha : h.awaiting = []) (hst : h.prog[h.hpc]? = some (.rd r t)) : hostStep h = .next (issueRead r t h) := by
  rw [hostStep_issue hp hd hst, ha]
  rfl

@[simp] theorem storedReg_issueRead (r r' : Reg) (t : Nat) (h : HostRun) :
    storedReg (issueRead r t h).block r' = storedReg h.block r' := by cases r' <;> rfl

/-- While an event waits, the completion is next only where it is due. -/
theorem not_engineMoves_of_not_due {s : State} (hd : completionDue s = false) (hp : s.port ≠ []) : ¬ EngineMoves s :=
  fun ⟨hb, hr, hturn⟩ => by simp [(completionDue_iff s).mpr ⟨hb, hr, hturn.resolve_right hp⟩] at hd

/-- The host has read register `r` into temporary `t` and stands at its next statement. -/
def afterRead (r : Reg) (t : Nat) (h : HostRun) : HostRun :=
  { h with
    hpc := h.hpc + 1, temps := (t, storedReg h.block r) :: h.temps, awaiting := []
    block := takeReply (storedReg h.block r) [] h.block }

/-- A read that the block specifies takes two steps: the host issues it, and the block answers. -/
theorem hostReaches_afterRead {h : HostRun} {r : Reg} {t : Nat} (hp : h.block.port = [])
    (hd : completionDue h.block = false) (ha : h.awaiting = []) (hr : h.block.rst = false)
    (hspec : (h.block.busy && unstable (.reg r)) = false) (hst : h.prog[h.hpc]? = some (.rd r t)) :
    HostReaches h (afterRead r t h) := by
  have hwaits : (issueRead r t h).block.port ≠ [] := List.cons_ne_nil _ _
  have hread := step_read_reg (s := (issueRead r t h).block) (not_engineMoves_of_not_due hd hwaits) hr rfl
  rw [readLoc_takeTurn (s := (issueRead r t h).block) hspec, storedAt, storedReg_issueRead] at hread
  exact .of_step (hostStep_rd hp hd ha hst) (.single (hostStep_receive hwaits rfl hread))

/-! ## `rdbits` -/

/-- The words of `buf` numbered `ws` have filled the temporaries from `t + 1` on. -/
def fillWords (t : Nat) (buf : Bits) (ws : List Nat) (temps : List (Nat × Word)) : List (Nat × Word) :=
  (ws.map fun w => (t + 1 + w, windowWord buf w)).reverse ++ temps

theorem fillWords_cons (t : Nat) (buf : Bits) (w : Nat) (ws : List Nat) (temps : List (Nat × Word)) :
    fillWords t buf (w :: ws) temps = fillWords t buf ws ((t + 1 + w, windowWord buf w) :: temps) := by
  simp [fillWords]

theorem tempOf_fillWords_of_ne {t u : Nat} {buf : Bits} {ws : List Nat} (h : ∀ w ∈ ws, t + 1 + w ≠ u)
    (temps : List (Nat × Word)) : tempOf (fillWords t buf ws temps) u = tempOf temps u := by
  induction ws generalizing temps with
  | nil => rfl
  | cons w ws ih =>
    obtain ⟨hw, hws⟩ := List.forall_mem_cons.mp h
    rw [fillWords_cons, ih hws, tempOf_cons_of_ne hw]

theorem tempOf_fillWords {t w : Nat} {buf : Bits} {ws : List Nat} (h : w ∈ ws) (temps : List (Nat × Word)) :
    tempOf (fillWords t buf ws temps) (t + 1 + w) = windowWord buf w := by
  induction ws generalizing temps with
  | nil => simp at h
  | cons v ws ih =>
    rw [fillWords_cons]
    by_cases hw : w ∈ ws
    · exact ih hw _
    · obtain rfl : w = v := by simpa [hw] using h
      rw [tempOf_fillWords_of_ne (fun u hu => ?_), tempOf_cons_self]
      have : u ≠ w := fun huw => hw (huw ▸ hu)
      omega

/-- The reads of the words `ws` have taken effect, and their replies are the host's. -/
def receiveWords (x : Buf) (t : Nat) (ws : List Nat) (h : HostRun) : HostRun :=
  { h with
    temps := fillWords t (bufferOf h.block x) ws h.temps, awaiting := [], block := readWords x ws h.block }

theorem receiveWords_nil {x : Buf} {t : Nat} {h : HostRun} (hp : h.block.port = []) (ha : h.awaiting = []) :
    receiveWords x t [] h = h := by
  rw [receiveWords, readWords_nil hp]
  cases h
  cases ha
  rfl

theorem receiveWords_cons (x : Buf) (t w : Nat) (ws rest : List Nat) (events : List PortEvent) (h : HostRun) :
    receiveWords x t ws (receive (t + 1 + w) (windowWord (bufferOf h.block x) w) rest events h) =
      receiveWords x t (w :: ws) h := by
  simp only [receiveWords, receive, bufferOf_takeReply, readWords_cons, fillWords_cons]

theorem hostReaches_receiveWords {x : Buf} {t : Nat} {ws : List Nat} (hws : ∀ w ∈ ws, w < 1024) {h : HostRun}
    (hb : h.block.busy = false) (hr : h.block.rst = false) (hp : h.block.port = wordReads h.block.params x ws)
    (ha : h.awaiting = ws.map fun w => t + 1 + w) : HostReaches h (receiveWords x t ws h) := by
  induction ws generalizing h with
  | nil => rw [receiveWords_nil hp ha]; exact .refl h
  | cons w ws ih =>
    obtain ⟨hw, hws⟩ := List.forall_mem_cons.mp hws
    rw [← receiveWords_cons]
    exact .of_step (hostStep_receive (by simp [hp, wordReads]) ha (step_wordReads hb hr hw hp)) (ih hws hb hr rfl rfl)

/-- The reads of the string's words have been handed to the port, as many as the length in temporary `t` takes. -/
def issueWords (x : ReadBuf) (t : Nat) (h : HostRun) : HostRun :=
  { h with
    hpc := h.hpc + 1
    awaiting := (List.range (wordsFor (tempOf h.temps t).toNat)).map fun w => t + 1 + w
    block := { h.block with
      port := wordReads h.block.params x.buf (List.range (wordsFor (tempOf h.temps t).toNat))
      hostTurns :=
        if stmtEvents h.block.params h.temps (.rdws x t) = [] then h.block.hostTurns - 1 else h.block.hostTurns } }

theorem hostStep_rdws {h : HostRun} {x : ReadBuf} {t : Nat} (hp : h.block.port = [])
    (hd : completionDue h.block = false) (ha : h.awaiting = []) (hst : h.prog[h.hpc]? = some (.rdws x t)) :
    hostStep h = .next (issueWords x t h) := by
  rw [hostStep_issue hp hd hst, ha]
  rfl

/-- The host stands behind `rdbits`, and holds the string. -/
def afterRdbits (x : ReadBuf) (t : Nat) (h : HostRun) : HostRun :=
  receiveWords x.buf t (List.range (wordsFor (storedReg h.block (lengthReg x.buf)).toNat))
    (issueWords x t (afterRead (lengthReg x.buf) t h))

theorem hostReaches_afterRdbits {h : HostRun} {before after : List Stmt} {x : ReadBuf} {t : Nat}
    (hprog : h.prog = before ++ rdbitsStmts x t ++ after) (hpc : h.hpc = before.length) (ha : h.awaiting = [])
    (hi : Inv h.block) (hb : h.block.busy = false) (hr : h.block.rst = false) (hp : h.block.port = [])
    (hfits : (storedReg h.block (lengthReg x.buf)).toNat ≤ (bufferOf h.block x.buf).length) :
    HostReaches h (afterRdbits x t h) := by
  have hrd : h.prog[h.hpc]? = some (.rd (lengthReg x.buf) t) := by rw [hprog, hpc]; exact getElem?_block (i := 0) rfl
  have hrdws : h.prog[h.hpc + 1]? = some (.rdws x t) := by rw [hprog, hpc]; exact getElem?_block (i := 1) rfl
  refine (hostReaches_afterRead hp (completionDue_idle hb) ha hr (by simp [hb]) hrd).trans ?_
  refine .of_step (hostStep_rdws rfl (completionDue_idle hb) rfl hrdws) ?_
  exact hostReaches_receiveWords (word_lt_of_fits (x := x.buf) hi hfits) hb hr (by simp [issueWords, afterRead])
    (by simp [issueWords, afterRead])

@[simp] theorem afterRdbits_temps (x : ReadBuf) (t : Nat) (h : HostRun) :
    (afterRdbits x t h).temps =
      fillWords t (bufferOf h.block x.buf) (List.range (wordsFor (storedReg h.block (lengthReg x.buf)).toNat))
        ((t, storedReg h.block (lengthReg x.buf)) :: h.temps) := by
  cases x <;> rfl

theorem tempOf_afterRdbits_length (x : ReadBuf) (t : Nat) (h : HostRun) :
    tempOf (afterRdbits x t h).temps t = storedReg h.block (lengthReg x.buf) := by
  rw [afterRdbits_temps, tempOf_fillWords_of_ne (fun w _ => by omega), tempOf_cons_self]

theorem tempOf_afterRdbits_word (x : ReadBuf) (t : Nat) (h : HostRun) {w : Nat}
    (hw : w < wordsFor (storedReg h.block (lengthReg x.buf)).toNat) :
    tempOf (afterRdbits x t h).temps (t + 1 + w) = windowWord (bufferOf h.block x.buf) w := by
  rw [afterRdbits_temps, tempOf_fillWords (List.mem_range.mpr hw)]

theorem tempOf_afterRdbits_other (x : ReadBuf) (t : Nat) (h : HostRun) {u : Nat}
    (hu : u < t ∨ t + wordsFor (storedReg h.block (lengthReg x.buf)).toNat < u) :
    tempOf (afterRdbits x t h).temps u = tempOf h.temps u := by
  rw [afterRdbits_temps, tempOf_fillWords_of_ne (fun w hw => ?_), tempOf_cons_of_ne (by omega)]
  have := List.mem_range.mp hw
  omega

theorem rdbitsOf_afterRdbits (x : ReadBuf) (t : Nat) (h : HostRun) :
    rdbitsOf (afterRdbits x t h).temps t =
      prefixBits (storedReg h.block (lengthReg x.buf)).toNat (bufferOf h.block x.buf) := by
  rw [rdbitsOf, tempOf_afterRdbits_length, ← rdbitsString_windowWords]
  congr 1
  exact List.map_congr_left fun w hw => tempOf_afterRdbits_word x t h (List.mem_range.mp hw)

/-- Settles O60: the first read fills temporary `t`, whose value then sets the number of word reads. -/
theorem rdbitsRunsAtTheCurrentLength : Obligations.RdbitsRunsAtTheCurrentLength := by
  unfold Obligations.RdbitsRunsAtTheCurrentLength
  rintro h before after x t _ hprog hpc ha hi hb hr hp rfl hfits
  obtain ⟨k, hk⟩ := hostReaches_afterRdbits hprog hpc ha hi hb hr hp hfits
  refine ⟨k, afterRdbits x t h, hk, rfl, rfl, rfl, by rw [tempOf_afterRdbits_length], rdbitsOf_afterRdbits x t h,
    fun u hu => tempOf_afterRdbits_other x t h hu, ?frame⟩
  case frame =>
    obtain ⟨prog, hpc, temps, awaiting, block⟩ := h
    cases block
    cases hp
    rfl

end Sys2Proof.Machine
end

section
/-! SUPPORT. The polling loop of `wait`: by the host turns left while the block is busy, and straight on once it is idle
(30_encoding.md R100; 70_reset_and_hazards.md R223). -/

namespace Sys2Proof.Machine

/-- Every command completes, whatever the state (60_exceptions.md R181). -/
theorem exec_total (i : Instr) (s : State) : ∃ t, exec i s = .next t := by
  obtain ⟨t, _, ht, -⟩ := exec_runsAlike (s := s) ⟨rfl, rfl, rfl, rfl, fun _ _ => rfl, fun _ _ => rfl⟩ rfl i
  exact ⟨t, ht⟩

/-- A completion ends the run with DONE = 1 and keeps what is the host's (60_exceptions.md R182). -/
theorem step_completes {s : State} (he : EngineMoves s) :
    ∃ t, step s = .next t ∧ t.busy = false ∧ t.done = true ∧ t.rst = s.rst ∧ t.port = s.port ∧
      t.replies = s.replies := by
  rw [step_engine he]
  cases hd : decode s.cmd with
  | command i =>
    obtain ⟨t, ht⟩ := exec_total i s
    refine ⟨t, (engineStep_command hd).trans ht, ?_⟩
    rw [exec_frame ht]
    exact ⟨rfl, rfl, rfl, rfl, rfl⟩
  | illegal why => exact ⟨_, engineStep_illegal hd, rfl, rfl, rfl, rfl, rfl⟩

/-- The loop goes on exactly while the STATUS it has read shows BUSY (30_encoding.md R100). -/
theorem condHolds_wait (temps : List (Nat × Word)) (t : Nat) :
    condHolds temps (.eq (.field t 0 0) (.lit 1)) = (tempOf temps t).getLsbD 0 := by
  have hfield : ((tempOf temps t).extractLsb' 0 1).toNat = (tempOf temps t).toNat % 2 := by
    rw [BitVec.extractLsb'_toNat, Nat.shiftRight_zero, pow_one]
  simp only [condHolds, evalExp, BitVec.getLsbD, Nat.testBit_zero]
  rw [hfield]
  rfl

/-- The program has `wait` with label `l` and temporary `t` at `n`, and no earlier place bears the label. -/
structure HasWait (prog : List Stmt) (n l t : Nat) : Prop where
  label : prog[n]? = some (.label l)
  read : prog[n + 1]? = some (.rd .status t)
  branch : prog[n + 2]? = some (.ifGoto (.eq (.field t 0 0) (.lit 1)) l)
  labelIndex_eq : labelIndex prog l = n

theorem hasWait_append {before after : List Stmt} {l t : Nat} (hl : .label l ∉ before) :
    HasWait (before ++ waitStmts l t ++ after) before.length l t where
  label := getElem?_block (i := 0) rfl
  read := getElem?_block (i := 1) rfl
  branch := getElem?_block (i := 2) rfl
  labelIndex_eq := by
    have hfree : before.findIdx (· == .label l) = before.length := by
      simp only [List.findIdx_eq_length, beq_eq_false_iff_ne]
      exact fun st hst heq => hl (heq ▸ hst)
    rw [labelIndex, List.append_assoc, List.findIdx_append, hfree, if_neg (lt_irrefl _)]
    simp [waitStmts, List.findIdx_cons]

/-- The host stands at `n`, with nothing on its way, beside a block out of reset. -/
structure StandsAt (prog : List Stmt) (n : Nat) (h : HostRun) : Prop where
  prog_eq : h.prog = prog
  hpc_eq : h.hpc = n
  awaiting : h.awaiting = []
  port : h.block.port = []
  rst : h.block.rst = false

/-- The loop of the `wait` at `n` has ended. -/
structure WaitEnded (prog : List Stmt) (n t : Nat) (h : HostRun) : Prop extends StandsAt prog (n + 3) h where
  busy : h.block.busy = false
  done : h.block.done = true
  status : tempOf h.temps t = statusWord h.block

/-- The host comes to the end of the `wait` at `n`. -/
def EndsWait (prog : List Stmt) (n t : Nat) (h : HostRun) : Prop :=
  ∃ h', HostReaches h h' ∧ WaitEnded prog n t h'

theorem EndsWait.of_reaches {prog : List Stmt} {n t : Nat} {h h' : HostRun} (hreach : HostReaches h h')
    (hends : EndsWait prog n t h') : EndsWait prog n t h := by
  obtain ⟨h'', h₂, hended⟩ := hends
  exact ⟨h'', hreach.trans h₂, hended⟩

/-- The places of a `wait` at `n` from which its loop goes on: its label, its read, and its branch where the last STATUS
read showed BUSY. -/
inductive Polls (prog : List Stmt) (n t : Nat) (h : HostRun) : Prop where
  | atLabel (stands : StandsAt prog n h)
  | atRead (stands : StandsAt prog (n + 1) h)
  | atBranch (stands : StandsAt prog (n + 2) h) (again : (tempOf h.temps t).getLsbD 0 = true)

/-- The host has made a statement with no access, and goes on at `pc`. -/
def afterSilent (pc : Nat) (h : HostRun) : HostRun :=
  { h with hpc := pc, block := { h.block with hostTurns := h.block.hostTurns - 1 } }

theorem StandsAt.afterSilent {prog : List Stmt} {m : Nat} {h : HostRun} (ha : StandsAt prog m h) (pc : Nat) :
    StandsAt prog pc (afterSilent pc h) :=
  ⟨ha.prog_eq, rfl, ha.awaiting, ha.port, ha.rst⟩

theorem StandsAt.afterRead {prog : List Stmt} {m : Nat} {h : HostRun} (ha : StandsAt prog m h) (r : Reg) (t : Nat) :
    StandsAt prog (m + 1) (afterRead r t h) :=
  ⟨ha.prog_eq, congrArg (· + 1) ha.hpc_eq, rfl, rfl, ha.rst⟩

theorem StandsAt.withBlock {prog : List Stmt} {m : Nat} {h : HostRun} {t : State} (ha : StandsAt prog m h)
    (hport : t.port = h.block.port) (hrst : t.rst = h.block.rst) : StandsAt prog m { h with block := t } :=
  ⟨ha.prog_eq, ha.hpc_eq, ha.awaiting, hport.trans ha.port, hrst.trans ha.rst⟩

theorem Polls.withBlock {prog : List Stmt} {n t : Nat} {h : HostRun} {u : State} (hpoll : Polls prog n t h)
    (hport : u.port = h.block.port) (hrst : u.rst = h.block.rst) : Polls prog n t { h with block := u } := by
  cases hpoll with
  | atLabel stands => exact .atLabel (stands.withBlock hport hrst)
  | atRead stands => exact .atRead (stands.withBlock hport hrst)
  | atBranch stands again => exact .atBranch (stands.withBlock hport hrst) again

theorem Polls.rst {prog : List Stmt} {n t : Nat} {h : HostRun} (hpoll : Polls prog n t h) : h.block.rst = false := by
  cases hpoll with
  | atLabel stands | atRead stands | atBranch stands => exact stands.rst

theorem getLsbD_statusWord_busy (s : State) : (statusWord s).getLsbD 0 = s.busy := getLsbD_statusWord s (by decide)

theorem getLsbD_statusWord_done (s : State) : (statusWord s).getLsbD 1 = s.done := getLsbD_statusWord s (by decide)

theorem tempOf_afterRead (r : Reg) (t : Nat) (h : HostRun) :
    tempOf (afterRead r t h).temps t = storedReg h.block r := tempOf_cons_self _ _ _

section Wait
variable {prog : List Stmt} {n l t : Nat} (hw : HasWait prog n l t) {h : HostRun} (hd : completionDue h.block = false)
include hw hd

theorem hostStep_label (ha : StandsAt prog n h) : hostStep h = .next (afterSilent (n + 1) h) := by
  obtain ⟨rfl, rfl, -, hp, -⟩ := ha
  exact hostStep_silent hp hd hw.label rfl rfl

theorem hostStep_branch_again (ha : StandsAt prog (n + 2) h) (again : (tempOf h.temps t).getLsbD 0 = true) :
    hostStep h = .next (afterSilent n h) := by
  obtain ⟨rfl, hpc, -, hp, -⟩ := ha
  rw [hostStep_silent hp hd (hpc ▸ hw.branch) rfl rfl, nextIndex, condHolds_wait, again, if_pos rfl, hw.labelIndex_eq]
  rfl

theorem hostStep_branch_on (ha : StandsAt prog (n + 2) h) (last : (tempOf h.temps t).getLsbD 0 = false) :
    hostStep h = .next (afterSilent (n + 3) h) := by
  obtain ⟨rfl, hpc, -, hp, -⟩ := ha
  rw [hostStep_silent hp hd (hpc ▸ hw.branch) rfl rfl, nextIndex, condHolds_wait, last, if_neg Bool.false_ne_true,
    hpc]
  rfl

theorem hostReaches_status (ha : StandsAt prog (n + 1) h) : HostReaches h (afterRead .status t h) := by
  obtain ⟨rfl, hpc, haw, hp, hr⟩ := ha
  exact hostReaches_afterRead hp hd haw hr (Bool.and_false _) (hpc ▸ hw.read)

/-- While the block is busy, each statement of the loop leads to the next, and takes a host turn. -/
theorem Polls.next_busy (hpoll : Polls prog n t h) (hb : h.block.busy = true) :
    ∃ h', HostReaches h h' ∧ Polls prog n t h' ∧ h'.block.busy = true ∧
      h'.block.hostTurns = h.block.hostTurns - 1 := by
  cases hpoll with
  | atLabel stands =>
    exact ⟨_, .single (hostStep_label hw hd stands), .atRead (stands.afterSilent _), hb, rfl⟩
  | atRead stands =>
    have again : (tempOf (afterRead .status t h).temps t).getLsbD 0 = true := by
      rw [tempOf_afterRead, storedReg, getLsbD_statusWord_busy, hb]
    exact ⟨_, hostReaches_status hw hd stands, .atBranch (stands.afterRead _ _) again, hb, rfl⟩
  | atBranch stands again =>
    exact ⟨_, .single (hostStep_branch_again hw hd stands again), .atLabel (stands.afterSilent _), hb, rfl⟩

omit hd

/-- Once the block is idle, the next STATUS read ends the loop. -/
theorem endsWait_read (ha : StandsAt prog (n + 1) h) (hb : h.block.busy = false) (hdone : h.block.done = true) :
    EndsWait prog n t h := by
  have hread := hostReaches_status hw (completionDue_idle hb) ha
  have last : (tempOf (afterRead .status t h).temps t).getLsbD 0 = false := by
    rw [tempOf_afterRead, storedReg, getLsbD_statusWord_busy, hb]
  have hbehind := ha.afterRead .status t
  have hbranch := hostStep_branch_on (h := afterRead .status t h) hw (completionDue_idle hb) hbehind last
  exact ⟨_, hread.trans (.single hbranch),
    { hbehind.afterSilent (n + 3) with
      busy := hb, done := hdone, status := tempOf_afterRead .status t h }⟩

theorem endsWait_label (ha : StandsAt prog n h) (hb : h.block.busy = false) (hdone : h.block.done = true) :
    EndsWait prog n t h :=
  .of_reaches (.single (hostStep_label hw (completionDue_idle hb) ha))
    (endsWait_read hw (ha.afterSilent _) hb hdone)

theorem Polls.endsWait_idle (hpoll : Polls prog n t h) (hb : h.block.busy = false) (hdone : h.block.done = true) :
    EndsWait prog n t h := by
  cases hpoll with
  | atLabel stands => exact endsWait_label hw stands hb hdone
  | atRead stands => exact endsWait_read hw stands hb hdone
  | atBranch stands again =>
    exact .of_reaches (.single (hostStep_branch_again hw (completionDue_idle hb) stands again))
      (endsWait_label hw (stands.afterSilent _) hb hdone)

theorem Polls.endsWait_due (hpoll : Polls prog n t h) (hdue : completionDue h.block = true) : EndsWait prog n t h := by
  obtain ⟨hb, hr, hturns⟩ := (completionDue_iff _).mp hdue
  obtain ⟨u, hu, hbusy, hdone, hrst, hport, hreplies⟩ := step_completes ⟨hb, hr, .inl hturns⟩
  have hstep := hostStep_due hdue hu
  rw [hostReceive_silent hreplies] at hstep
  exact .of_reaches (.single hstep) ((hpoll.withBlock hport hrst).endsWait_idle hw hbusy hdone)

theorem Polls.endsWait_busy (hpoll : Polls prog n t h) (hb : h.block.busy = true) : EndsWait prog n t h := by
  induction hturns : h.block.hostTurns generalizing h with
  | zero => exact hpoll.endsWait_due hw ((completionDue_iff _).mpr ⟨hb, hpoll.rst, hturns⟩)
  | succ turns ih =>
    obtain ⟨h', hreach, hpoll', hb', hturns'⟩ := hpoll.next_busy hw (completionDue_turns hturns) hb
    exact .of_reaches hreach (ih hpoll' hb' (by omega))

end Wait

/-- Settles O57: each statement of the loop takes a host turn of a busy block, so the completion comes; the STATUS read
next ends the loop. -/
theorem waitLoopEnds : Obligations.WaitLoopEnds := by
  unfold Obligations.WaitLoopEnds
  intro h before after l t hprog hl hpc ha hb hr hp
  have hpoll : Polls h.prog before.length t h := .atLabel ⟨rfl, hpc, ha, hp, hr⟩
  obtain ⟨h', ⟨k, hk⟩, hended⟩ := hpoll.endsWait_busy (hprog ▸ hasWait_append hl) hb
  obtain ⟨⟨hprog', hpc', haw', -, -⟩, hbusy, hdone, hstatus⟩ := hended
  refine ⟨k, h', hk, hprog', by rw [hpc', hpc], haw', hbusy, hdone, hstatus, ?_, ?_⟩
  · rw [hstatus, getLsbD_statusWord_busy, hbusy]
  · rw [hstatus, getLsbD_statusWord_done, hdone]

end Sys2Proof.Machine
end

section
/-! SUPPORT. The divider on bit strings: what its steps clear, and that it is linear (40_crc.md R113, R116). -/

namespace Sys2Proof.Machine

/-! ## The steps clear the leading bits -/

theorem bitAt_crcStep_self {gs : Bits} (hg : bitAt gs 0 = true) (w : Bits) (i : Nat) :
    bitAt (crcStep gs w i) i = false := by
  simp [bitAt_crcStep, hg]

theorem bitAt_crcStep_outside {gs w : Bits} {i j : Nat} (h : j < i ∨ i + gs.length ≤ j) :
    bitAt (crcStep gs w i) j = bitAt w j := by
  have hpattern : (decide (i ≤ j) && bitAt gs (j - i)) = false := by
    rcases h with hbefore | hafter
    · simp [Nat.not_le.mpr hbefore]
    · rw [bitAt_of_length_le (by omega), Bool.and_false]
  rw [bitAt_crcStep, hpattern, Bool.and_false, Bool.xor_false]
  split
  · rfl
  · rw [bitAt_of_length_le (by omega)]

theorem bitAt_crcSteps_lt {gs : Bits} (hg : bitAt gs 0 = true) (w : Bits) {steps j : Nat} (hj : j < steps) :
    bitAt ((List.range steps).foldl (crcStep gs) w) j = false := by
  induction steps with
  | zero => omega
  | succ n ih =>
    rw [List.range_succ, List.foldl_append, List.foldl_cons, List.foldl_nil]
    rcases Nat.lt_succ_iff_lt_or_eq.mp hj with hlt | rfl
    · rw [bitAt_crcStep_outside (.inl hlt), ih hlt]
    · exact bitAt_crcStep_self hg _ j

/-- Settles O37: a step XORs its leading bit with the generator's leading 1, and later steps lie behind it. -/
theorem dividerStepsClearLeadingBits : Obligations.DividerStepsClearLeadingBits := by
  unfold Obligations.DividerStepsClearLeadingBits
  exact fun w gs hg =>
    ⟨fun i => ⟨bitAt_crcStep_self hg w i, fun j => bitAt_crcStep_outside⟩, fun steps j => bitAt_crcSteps_lt hg w⟩

/-! ## Linearity -/

theorem bitAt_zipWith_xor {u v : Bits} (h : u.length = v.length) (j : Nat) :
    bitAt (List.zipWith xor u v) j = (bitAt u j ^^ bitAt v j) := by
  by_cases hj : j < u.length
  · rw [bitAt_eq_getElem (by simp; omega), bitAt_eq_getElem hj, bitAt_eq_getElem (h ▸ hj), List.getElem_zipWith]
  · rw [bitAt_of_length_le (by simp; omega), bitAt_of_length_le (by omega), bitAt_of_length_le (by omega)]
    rfl

/-- Whether a step fires is a bit of the working string, so it too is linear in the input (40_crc.md R116). -/
theorem crcStep_zipWith_xor (gs : Bits) {u v : Bits} (h : u.length = v.length) (i : Nat) :
    crcStep gs (List.zipWith xor u v) i = List.zipWith xor (crcStep gs u i) (crcStep gs v i) := by
  refine bits_ext (by simp) fun j hj => ?_
  simp only [length_crcStep, List.length_zipWith, h, min_self] at hj
  rw [bitAt_zipWith_xor (by simpa using h)]
  simp only [bitAt_crcStep, bitAt_zipWith_xor h, List.length_zipWith, h, min_self, hj, if_true,
    Bool.and_xor_distrib_right, Bool.xor_assoc, Bool.xor_left_comm (bitAt v j)]

theorem crcSteps_zipWith_xor (gs : Bits) (l : List Nat) {u v : Bits} (h : u.length = v.length) :
    l.foldl (crcStep gs) (List.zipWith xor u v) =
      List.zipWith xor (l.foldl (crcStep gs) u) (l.foldl (crcStep gs) v) := by
  induction l generalizing u v with
  | nil => rfl
  | cons i l ih =>
    rw [List.foldl_cons, crcStep_zipWith_xor gs h, ih (by simpa using h), List.foldl_cons, List.foldl_cons]

/-- Settles O36: every step is linear, and so is taking the last bits. -/
theorem crcDividerIsLinear : Obligations.CrcDividerIsLinear := by
  unfold Obligations.CrcDividerIsLinear
  intro u v gs steps h
  simp only [crcDivide, crcSteps_zipWith_xor gs _ h, List.drop_zipWith, List.length_zipWith, h, min_self]

end Sys2Proof.Machine
end

section
/-! SUPPORT. The CRC commands: the next state of each outcome, written out (40_crc.md R120, R121), and the frame of the
commands that write Y. -/

namespace Sys2Proof.Machine

/-! ## The errors, in their priority -/

theorem crcCheck_badLength {short : Bool} {s : State} (h : s.params.lMax < lenA s ∨ s.params.gMax < lenG s) :
    crcCheck short s = some .badLength := if_pos h

section Capacity
variable {s : State} (hA : lenA s ≤ s.params.lMax) (hG : lenG s ≤ s.params.gMax)
include hA hG

theorem crcCheck_inputTooShort : crcCheck true s = some .inputTooShort := by
  simp [crcCheck, Nat.not_lt.mpr hA, Nat.not_lt.mpr hG]

theorem crcCheck_invalidGenerator (h : bitAt s.g 0 = false) : crcCheck false s = some .invalidGenerator := by
  simp [crcCheck, Nat.not_lt.mpr hA, Nat.not_lt.mpr hG, h]

end Capacity

theorem crcRemTooShort_true_iff {s : State} : crcRemTooShort s = true ↔ lenA s < 1 ∨ lenG s < 2 := by
  simp only [crcRemTooShort, Bool.or_eq_true, decide_eq_true_eq]

theorem crcVerifyTooShort_true_iff {s : State} : crcVerifyTooShort s = true ↔ lenG s < 2 ∨ lenA s < lenG s := by
  simp only [crcVerifyTooShort, Bool.or_eq_true, decide_eq_true_eq]

/-- Settles O22: the checks are made in the order of 60_exceptions.md R184, before anything is written. -/
theorem crcRemErrors : Obligations.CrcRemErrors := by
  unfold Obligations.CrcRemErrors
  refine fun s => ⟨fun h => exec_crcRem_error (crcCheck_badLength h), fun hA hG h => ?_, fun hA hG h1 h2 h0 => ?_⟩
  · exact exec_crcRem_error (crcRemTooShort_true_iff.mpr h ▸ crcCheck_inputTooShort hA hG)
  · exact exec_crcRem_error (crcRemTooShort_false_iff.mpr ⟨h1, h2⟩ ▸ crcCheck_invalidGenerator hA hG h0)

/-- Settles O24: as for CRC_REM, with CRC_VERIFY's own length check. -/
theorem crcVerifyErrors : Obligations.CrcVerifyErrors := by
  unfold Obligations.CrcVerifyErrors
  refine fun s => ⟨fun h => exec_crcVerify_error (crcCheck_badLength h), fun hA hG h => ?_, fun hA hG h1 h2 h0 => ?_⟩
  · exact exec_crcVerify_error (crcVerifyTooShort_true_iff.mpr h ▸ crcCheck_inputTooShort hA hG)
  · exact exec_crcVerify_error (crcVerifyTooShort_false_iff.mpr ⟨h1, h2⟩ ▸ crcCheck_invalidGenerator hA hG h0)

/-! ## The completions without error -/

/-- A result string of `n` bits, written out (10_state.md R48). -/
theorem putY_eq {bits : Bits} {n : Nat} (h : bits.length = n) (s : State) :
    putY bits s = { s with y := bits ++ zeros (s.params.lMax - n), yLen := BitVec.ofNat 32 n } := by
  subst h; rfl

/-- Settles O21: with every check passed, Y gets the divider's result, which has `G_LEN - 1` bits. -/
theorem crcRemCompletes : Obligations.CrcRemCompletes := by
  unfold Obligations.CrcRemCompletes
  intro s h1 hA h2 hG h0
  have hc := (crcCheck_none_iff _ s).mpr ⟨hA, hG, crcRemTooShort_false_iff.mpr ⟨h1, h2⟩, h0⟩
  refine ⟨crcRemainder s, rfl, length_crcRemainder s, ?_⟩
  rw [exec_crcRem_ok hc, putY_eq (length_crcRemainder s)]
  rfl

/-- What CRC_VERIFY answers for a string and generator that pass its checks (40_crc.md R121). -/
theorem exec_crcVerify_next {s : State} (hA : lenA s ≤ s.params.lMax) (h2 : 2 ≤ lenG s) (hG : lenG s ≤ s.params.gMax)
    (hGA : lenG s ≤ lenA s) (h0 : bitAt s.g 0 = true) :
    exec .crcVerify s =
      .next { s with
        y := crcReceived s ++ zeros (s.params.lMax - (lenG s - 1)), yLen := BitVec.ofNat 32 (lenG s - 1)
        result := if crcReceived s = zeros (lenG s - 1) then 1 else 0
        err := .noError, done := true, busy := false } := by
  have hc := (crcCheck_none_iff _ s).mpr ⟨hA, hG, crcVerifyTooShort_false_iff.mpr ⟨h2, hGA⟩, h0⟩
  rw [exec_crcVerify_ok hc, putY_eq (length_crcReceived hGA)]
  split <;> rfl

/-- Settles O23: with every check passed, Y gets the divider's result and RESULT says whether it is all zero. -/
theorem crcVerifyCompletes : Obligations.CrcVerifyCompletes := by
  unfold Obligations.CrcVerifyCompletes
  exact fun s hA h2 hG hGA h0 =>
    ⟨crcReceived s, rfl, length_crcReceived hGA, exec_crcVerify_next hA h2 hG hGA h0⟩

/-! ## The frame of the commands that write Y -/

/-- A command that writes Y either reports an error and writes STATUS alone, or leaves a string that fits in Y and
perhaps a RESULT, which CRC_REM does not write. -/
inductive StringOutcome (i : Instr) (s t : State) : Prop
  | error (k : ErrorKind) (hk : k ≠ .noError) (ht : t = complete k s)
  | string (bits : Bits) (v : Word) (hfits : bits.length ≤ s.params.lMax)
      (ht : t = complete .noError { putY bits s with result := v }) (hv : i = .crcRem → v = s.result)

theorem StringOutcome.of_crcCheck {i : Instr} {short : Bool} {s : State} {k : ErrorKind}
    (h : crcCheck short s = some k) : StringOutcome i s (complete k s) := by
  refine .error k ?_ rfl
  rcases crcCheck_some h with rfl | rfl | rfl <;> decide

section Outcomes
variable {s t : State} (hl : s.params.Legal)
include hl

theorem crcRem_outcome (h : exec .crcRem s = .next t) : StringOutcome .crcRem s t := by
  cases hc : crcCheck (crcRemTooShort s) s with
  | some k =>
    cases (exec_crcRem_error hc).symm.trans h
    exact .of_crcCheck hc
  | none =>
    cases (exec_crcRem_ok hc).symm.trans h
    obtain ⟨-, hG, -, -⟩ := (crcCheck_none_iff _ s).mp hc
    exact .string (crcRemainder s) s.result (by rw [length_crcRemainder]; omega) rfl fun _ => rfl

theorem crcVerify_outcome (h : exec .crcVerify s = .next t) : StringOutcome .crcVerify s t := by
  cases hc : crcCheck (crcVerifyTooShort s) s with
  | some k =>
    cases (exec_crcVerify_error hc).symm.trans h
    exact .of_crcCheck hc
  | none =>
    cases (exec_crcVerify_ok hc).symm.trans h
    obtain ⟨-, hG, hshort, -⟩ := (crcCheck_none_iff _ s).mp hc
    obtain ⟨-, hGA⟩ := crcVerifyTooShort_false_iff.mp hshort
    exact .string (crcReceived s) _ (by rw [length_crcReceived hGA]; omega) rfl nofun

omit hl in
theorem hamEnc_outcome (h : exec .hamEnc s = .next t) : StringOutcome .hamEnc s t := by
  rcases Nat.lt_or_ge s.params.lMax (lenA s + rbits (lenA s)) with hlong | hfits
  · cases (exec_hamEnc_badLength hlong).symm.trans h
    exact .error .badLength (by decide) rfl
  · cases (exec_hamEnc_ok hfits).symm.trans h
    exact .string (hamPacket (stringA s)) _ (by simpa [stringA] using hfits) rfl nofun

theorem exec_string_outcome {i : Instr} (hi : i = .crcRem ∨ i = .crcVerify ∨ i = .hamEnc)
    (h : exec i s = .next t) : StringOutcome i s t := by
  rcases hi with rfl | rfl | rfl
  · exact crcRem_outcome hl h
  · exact crcVerify_outcome hl h
  · exact hamEnc_outcome h

end Outcomes

/-- Y is zero from Y_LEN on (10_state.md R48): a string that fits in Y has a length that fits in Y_LEN. -/
theorem bitAt_putY_beyond {bits : Bits} {s : State} (hl : s.params.Legal) (hfits : bits.length ≤ s.params.lMax)
    {j : Nat} (hj : (putY bits s).yLen.toNat ≤ j) : bitAt (putY bits s).y j = false := by
  rw [putY_yLen, BitVec.toNat_ofNat, Nat.mod_eq_of_lt (by omega)] at hj
  rw [putY_y, bitAt_zeroFill, bitAt_of_length_le hj]

/-- Settles O29: both outcomes of a command that writes Y show what it leaves alone. -/
theorem stringCommandsFrame : Obligations.StringCommandsFrame := by
  unfold Obligations.StringCommandsFrame
  intro i s t hi hl h
  cases exec_string_outcome hl hi h with
  | error k hk ht =>
    subst ht
    exact ⟨rfl, fun _ => rfl, fun _ => ⟨rfl, rfl, rfl⟩, fun he => absurd he hk⟩
  | string bits v hfits ht hv =>
    subst ht
    exact ⟨rfl, hv, fun he => absurd rfl he, fun _ => ⟨length_zeroFill hfits, fun j => bitAt_putY_beyond hl hfits⟩⟩

end Sys2Proof.Machine
end

section
/-! SUPPORT. Bit strings as polynomials over GF(2) (00_scope.md R14), and the divider as the polynomial remainder
(40_crc.md R115). -/

namespace Sys2Proof.Machine

open Polynomial (X)

/-! ## The polynomial of a string -/

theorem bitsPoly_cons (b : Bool) (s : Bits) :
    bitsPoly (b :: s) = (if b then X ^ s.length else 0) + bitsPoly s := rfl

@[simp] theorem bitsPoly_nil : bitsPoly [] = 0 := rfl

@[simp] theorem bitsPoly_cons_false (s : Bits) : bitsPoly (false :: s) = bitsPoly s := zero_add _

@[simp] theorem bitsPoly_cons_true (s : Bits) : bitsPoly (true :: s) = X ^ s.length + bitsPoly s := rfl

theorem bitsPoly_zeros (k : Nat) : bitsPoly (zeros k) = 0 := by
  induction k with
  | zero => rfl
  | succ k ih => exact (bitsPoly_cons_false (zeros k)).trans ih

theorem degree_bitsPoly_lt (s : Bits) : (bitsPoly s).degree < s.length := by
  induction s with
  | nil => simp
  | cons b s ih =>
    have hlt : (s.length : WithBot ℕ) < (b :: s).length := by exact_mod_cast Nat.lt_succ_self s.length
    cases b with
    | false => exact (bitsPoly_cons_false s).symm ▸ ih.trans hlt
    | true =>
      refine (Polynomial.degree_add_le _ _).trans_lt (max_lt ?_ (ih.trans hlt))
      exact (Polynomial.degree_X_pow (R := ZMod 2) s.length).trans_lt hlt

theorem degree_bitsPoly_cons_true (s : Bits) : (bitsPoly (true :: s)).degree = s.length := by
  have hpow : (X ^ s.length : Polynomial (ZMod 2)).degree = s.length := Polynomial.degree_X_pow _
  rw [bitsPoly_cons_true, Polynomial.degree_add_eq_left_of_degree_lt (hpow.symm ▸ degree_bitsPoly_lt s), hpow]

/-- The generator's leading 1 makes its polynomial monic. -/
theorem monic_bitsPoly_cons_true (s : Bits) : (bitsPoly (true :: s)).Monic :=
  Polynomial.monic_X_pow_add (degree_bitsPoly_lt s)

theorem bitsPoly_eq_zero_iff (s : Bits) : bitsPoly s = 0 ↔ s = zeros s.length := by
  induction s with
  | nil => simp [zeros]
  | cons b s ih =>
    cases b with
    | false => rw [bitsPoly_cons_false, ih]; simp [zeros, List.replicate_succ]
    | true => exact iff_of_false (monic_bitsPoly_cons_true s).ne_zero (by simp [zeros, List.replicate_succ])

/-! ## The polynomial of a generator: its leading bit is 1 (40_crc.md R120, R121) -/

theorem eq_cons_true {gs : Bits} (hg : bitAt gs 0 = true) : ∃ tl, gs = true :: tl := by
  cases gs with
  | nil => cases hg
  | cons b tl => exact ⟨tl, by rw [show b = true from hg]⟩

theorem length_pos_of_leading {gs : Bits} (hg : bitAt gs 0 = true) : 0 < gs.length := by
  obtain ⟨tl, rfl⟩ := eq_cons_true hg
  exact Nat.succ_pos _

theorem count_pos_of_leading {gs : Bits} (hg : bitAt gs 0 = true) : 0 < gs.count true := by
  obtain ⟨tl, rfl⟩ := eq_cons_true hg
  exact List.count_pos_iff.mpr List.mem_cons_self

theorem monic_bitsPoly {gs : Bits} (hg : bitAt gs 0 = true) : (bitsPoly gs).Monic := by
  obtain ⟨tl, rfl⟩ := eq_cons_true hg
  exact monic_bitsPoly_cons_true tl

theorem degree_bitsPoly {gs : Bits} (hg : bitAt gs 0 = true) : (bitsPoly gs).degree = (gs.length - 1 : ℕ) := by
  obtain ⟨tl, rfl⟩ := eq_cons_true hg
  exact degree_bitsPoly_cons_true tl

/-- A generator with one term is a power of `X`. -/
theorem bitsPoly_eq_X_pow_iff {gs : Bits} (hg : bitAt gs 0 = true) :
    bitsPoly gs = X ^ (gs.length - 1) ↔ gs.count true = 1 := by
  obtain ⟨tl, rfl⟩ := eq_cons_true hg
  rw [bitsPoly_cons_true, List.length_cons, Nat.add_sub_cancel, add_eq_left, bitsPoly_eq_zero_iff, zeros,
    List.eq_replicate_iff]
  simp [List.count_eq_zero]

/-! ## Strings in parts -/

theorem bitsPoly_append (s t : Bits) : bitsPoly (s ++ t) = bitsPoly s * X ^ t.length + bitsPoly t := by
  induction s with
  | nil => simp
  | cons b s ih =>
    rw [List.cons_append, bitsPoly_cons, bitsPoly_cons, ih, List.length_append]
    split <;> ring

/-- Leading zeros do not count. -/
theorem bitsPoly_drop {s : Bits} {n : Nat} (h : ∀ j < n, bitAt s j = false) : bitsPoly (s.drop n) = bitsPoly s := by
  induction n generalizing s with
  | zero => rfl
  | succ n ih =>
    cases s with
    | nil => rfl
    | cons b s =>
      obtain rfl : b = false := h 0 (Nat.succ_pos n)
      rw [List.drop_succ_cons, bitsPoly_cons_false, ih fun j hj => h (j + 1) (Nat.succ_lt_succ hj)]

/-! ## XOR is addition -/

theorem ite_xor_eq_add (b c : Bool) (p : Polynomial (ZMod 2)) :
    (if b ^^ c then p else 0) = (if b then p else 0) + if c then p else 0 := by
  cases b <;> cases c <;> simp [CharTwo.add_self_eq_zero]

theorem bitsPoly_xorHead {s p : Bits} (h : p.length ≤ s.length) :
    bitsPoly (xorHead s p) = bitsPoly s + bitsPoly p * X ^ (s.length - p.length) := by
  induction s generalizing p with
  | nil =>
    obtain rfl := List.length_eq_zero_iff.mp (Nat.le_zero.mp h)
    simp [xorHead]
  | cons b s ih =>
    cases p with
    | nil => simp [xorHead]
    | cons c p =>
      have hle : p.length ≤ s.length := Nat.le_of_succ_le_succ h
      have hpow : (X : Polynomial (ZMod 2)) ^ s.length = X ^ p.length * X ^ (s.length - p.length) := by
        rw [← pow_add, Nat.add_sub_cancel' hle]
      rw [xorHead, bitsPoly_cons, bitsPoly_cons, bitsPoly_cons, ih hle, length_xorHead, ite_xor_eq_add,
        List.length_cons, List.length_cons, Nat.add_sub_add_right]
      cases c <;> simp [hpow] <;> ring

/-- XOR onto a window adds the pattern, shifted to where the window ends (40_crc.md R111). -/
theorem bitsPoly_xorAt {s p : Bits} {i : Nat} (h : i + p.length ≤ s.length) :
    bitsPoly (xorAt s i p) = bitsPoly s + bitsPoly p * X ^ (s.length - (i + p.length)) := by
  induction s generalizing i with
  | nil =>
    obtain ⟨rfl, hp⟩ := Nat.add_eq_zero_iff.mp (Nat.le_zero.mp h)
    obtain rfl := List.length_eq_zero_iff.mp hp
    simp [xorAt, xorHead]
  | cons b s ih =>
    cases i with
    | zero => rw [xorAt, bitsPoly_xorHead (by omega), Nat.zero_add]
    | succ i =>
      rw [List.length_cons] at h
      have hle : i + p.length ≤ s.length := by omega
      have hexp : (b :: s).length - (i + 1 + p.length) = s.length - (i + p.length) := by rw [List.length_cons]; omega
      rw [xorAt, bitsPoly_cons, bitsPoly_cons, ih hle, length_xorAt, hexp, add_assoc]

theorem flipBit_eq_xorAt (s : Bits) (e : Nat) : flipBit s e = xorAt s e [true] := by
  refine bits_ext (by simp) fun j hj => ?_
  rw [length_flipBit] at hj
  rw [bitAt_flipBit, bitAt_xorAt, if_pos hj]
  rcases Nat.lt_trichotomy j e with hlt | rfl | hgt
  · simp [hlt.ne, Nat.not_le.mpr hlt]
  · simp [hj]
  · rw [bitAt_of_length_le (s := [true]) (by simp; omega)]
    simp [hgt.ne']

theorem bitsPoly_flipBit {s : Bits} {e : Nat} (h : e < s.length) :
    bitsPoly (flipBit s e) = bitsPoly s + X ^ (s.length - (e + 1)) := by
  rw [flipBit_eq_xorAt, bitsPoly_xorAt h]
  simp

/-! ## The divider -/

/-- A step adds a multiple of the generator. -/
theorem dvd_bitsPoly_crcStep {gs w : Bits} {i : Nat} (h : i + gs.length ≤ w.length) :
    bitsPoly gs ∣ bitsPoly (crcStep gs w i) - bitsPoly w := by
  unfold crcStep
  split
  · rw [bitsPoly_xorAt h, add_sub_cancel_left]
    exact dvd_mul_right _ _
  · rw [sub_self]
    exact dvd_zero _

theorem dvd_bitsPoly_crcSteps {gs w : Bits} {steps : Nat} (h : steps + gs.length ≤ w.length + 1) :
    bitsPoly gs ∣ bitsPoly ((List.range steps).foldl (crcStep gs) w) - bitsPoly w := by
  induction steps with
  | zero => simp
  | succ n ih =>
    rw [List.range_succ, List.foldl_append, List.foldl_cons, List.foldl_nil]
    have hlast := dvd_bitsPoly_crcStep (gs := gs) (w := (List.range n).foldl (crcStep gs) w) (i := n)
      (by rw [length_crcSteps]; omega)
    exact sub_add_sub_cancel (bitsPoly _) (bitsPoly _) (bitsPoly w) ▸ dvd_add hlast (ih (by omega))

theorem length_crcDivide_window {w gs : Bits} (hle : gs.length ≤ w.length) (steps : Nat) :
    (crcDivide w gs steps).length = gs.length - 1 := by
  rw [length_crcDivide]; omega

/-- The steps leave zeros in front and change the polynomial by a multiple of the generator's, so what remains is the
remainder (40_crc.md R113, R115). -/
theorem bitsPoly_crcDivide {w gs : Bits} (hg : bitAt gs 0 = true) (hle : gs.length ≤ w.length) :
    bitsPoly (crcDivide w gs (w.length - (gs.length - 1))) = bitsPoly w %ₘ bitsPoly gs := by
  have hpos := length_pos_of_leading hg
  have hdegree : (bitsPoly (crcDivide w gs (w.length - (gs.length - 1)))).degree < (bitsPoly gs).degree := by
    rw [degree_bitsPoly hg]
    exact (degree_bitsPoly_lt _).trans_eq (congrArg _ (length_crcDivide_window hle _))
  have hdvd : bitsPoly gs ∣ bitsPoly (crcDivide w gs (w.length - (gs.length - 1))) - bitsPoly w := by
    rw [crcDivide, bitsPoly_drop fun j hj => bitAt_crcSteps_lt hg w hj]
    exact dvd_bitsPoly_crcSteps (by omega)
  calc
    _ = bitsPoly (crcDivide w gs (w.length - (gs.length - 1))) %ₘ bitsPoly gs :=
      ((Polynomial.modByMonic_eq_self_iff (monic_bitsPoly hg)).mpr hdegree).symm
    _ = bitsPoly w %ₘ bitsPoly gs := Polynomial.modByMonic_eq_of_dvd_sub (monic_bitsPoly hg) hdvd

/-- Settles O35: the divider's result has the degree of a remainder and differs from the input by a multiple of the
generator. -/
theorem crcDividerIsPolynomialRemainder : Obligations.CrcDividerIsPolynomialRemainder := by
  unfold Obligations.CrcDividerIsPolynomialRemainder
  exact fun w gs hg hle => ⟨length_crcDivide_window hle _, bitsPoly_crcDivide hg hle⟩

/-- The divider leaves nothing exactly where the generator divides the string. -/
theorem crcDivide_eq_zeros_iff {w gs : Bits} (hg : bitAt gs 0 = true) (hle : gs.length ≤ w.length) :
    crcDivide w gs (w.length - (gs.length - 1)) = zeros (gs.length - 1) ↔ bitsPoly gs ∣ bitsPoly w := by
  rw [← Polynomial.modByMonic_eq_zero_iff_dvd (monic_bitsPoly hg), ← bitsPoly_crcDivide hg hle,
    bitsPoly_eq_zero_iff, length_crcDivide_window hle]

end Sys2Proof.Machine
end

section
/-! SUPPORT. Codewords (40_crc.md R122): CRC_VERIFY passes on them (R123), and what it makes of one flipped bit (R124). -/

namespace Sys2Proof.Machine

open Polynomial (X)

/-! ## The generator divides its codewords -/

theorem length_codeword (d gs : Bits) : (codeword d gs).length = d.length + (gs.length - 1) := by
  rw [codeword, List.length_append, length_crcDivide, List.length_append, length_zeros]
  omega

theorem dvd_bitsPoly_codeword {d gs : Bits} (hd : 1 ≤ d.length) (hg : bitAt gs 0 = true) :
    bitsPoly gs ∣ bitsPoly (codeword d gs) := by
  have hfits : gs.length ≤ (d ++ zeros (gs.length - 1)).length := by rw [List.length_append, length_zeros]; omega
  have hrem := bitsPoly_crcDivide hg hfits
  rw [List.length_append, length_zeros, Nat.add_sub_cancel, bitsPoly_append, bitsPoly_zeros, add_zero,
    length_zeros] at hrem
  rw [codeword, bitsPoly_append, length_crcDivide_window hfits, hrem, ← CharTwo.sub_eq_add, dvd_sub_comm]
  exact Polynomial.dvd_modByMonic_sub _ _

/-! ## One flipped bit -/

/-- A flip keeps divisibility exactly where the generator divides the flipped term (40_crc.md R116, R124). -/
theorem dvd_bitsPoly_flipBit_codeword {d gs : Bits} {e : Nat} (hd : 1 ≤ d.length) (hg : bitAt gs 0 = true)
    (he : e < d.length + (gs.length - 1)) :
    bitsPoly gs ∣ bitsPoly (flipBit (codeword d gs) e) ↔
      bitsPoly gs ∣ X ^ (d.length + (gs.length - 1) - (e + 1)) := by
  rw [bitsPoly_flipBit (by rwa [length_codeword]), length_codeword]
  exact dvd_add_right (dvd_bitsPoly_codeword hd hg)

/-- Only the powers of `X` divide a power of `X`, so a generator does iff it has one term and a low enough degree. -/
theorem bitsPoly_dvd_X_pow_iff {gs : Bits} (hg : bitAt gs 0 = true) (n : Nat) :
    bitsPoly gs ∣ X ^ n ↔ gs.count true = 1 ∧ gs.length - 1 ≤ n := by
  rw [← bitsPoly_eq_X_pow_iff hg, dvd_prime_pow Polynomial.prime_X]
  constructor
  · rintro ⟨i, hi, hassoc⟩
    have heq := Polynomial.eq_of_monic_of_associated (monic_bitsPoly hg) (Polynomial.monic_X_pow i) hassoc
    obtain rfl : gs.length - 1 = i := by
      have hdegree := degree_bitsPoly hg
      rw [heq, Polynomial.degree_X_pow] at hdegree
      exact_mod_cast hdegree.symm
    exact ⟨heq, hi⟩
  · rintro ⟨heq, hle⟩
    exact ⟨gs.length - 1, hle, heq ▸ Associated.refl _⟩

/-! ## CRC_VERIFY -/

theorem bitAt_generator_zero {s : State} (h : 1 ≤ lenG s) : bitAt (generator s) 0 = bitAt s.g 0 := by
  rw [generator, bitAt_prefixBits, if_pos (by omega)]

/-- CRC_VERIFY passes exactly where the generator divides the received string. -/
theorem crcReceived_eq_zeros_iff {s : State} (h0 : bitAt (generator s) 0 = true) (hGA : lenG s ≤ lenA s) :
    crcReceived s = zeros (lenG s - 1) ↔ bitsPoly (generator s) ∣ bitsPoly (stringA s) := by
  have hA : (stringA s).length = lenA s := length_prefixBits _ _
  have hG : (generator s).length = lenG s := length_prefixBits _ _
  rw [← crcDivide_eq_zeros_iff h0 (by rwa [hA, hG]), hA, hG, crcReceived]

theorem zeros_append_zeros (m n : Nat) : zeros m ++ zeros n = zeros (m + n) := List.replicate_append_replicate

/-- Settles O38: the generator divides the codeword, so the remainder and all of Y are zero. -/
theorem crcRoundTrip : Obligations.CrcRoundTrip := by
  unfold Obligations.CrcRoundTrip
  intro s d gs hd hk h0 hgMax hlMax hA hG hword hgen
  change stringA s = codeword d gs at hword
  change generator s = gs at hgen
  have hlead : bitAt s.g 0 = true := by rw [← bitAt_generator_zero (by omega), hgen, h0]
  have hzero : crcReceived s = zeros (lenG s - 1) := by
    rw [crcReceived_eq_zeros_iff (hgen ▸ h0) (by omega), hword, hgen]
    exact dvd_bitsPoly_codeword hd h0
  rw [exec_crcVerify_next (by omega) (by omega) (by omega) (by omega) hlead, if_pos hzero, hzero,
    zeros_append_zeros, hG, Nat.add_sub_cancel' (by omega)]

/-- Settles O39: a flip passes exactly where the generator divides the flipped term. -/
theorem crcSingleBitDetection : Obligations.CrcSingleBitDetection := by
  unfold Obligations.CrcSingleBitDetection
  intro s d gs e hd hk h0 hgMax hlMax hA hG he hword hgen
  change stringA s = flipBit (codeword d gs) e at hword
  change generator s = gs at hgen
  have hlead : bitAt s.g 0 = true := by rw [← bitAt_generator_zero (by omega), hgen, h0]
  have hpos := count_pos_of_leading h0
  have hpass : crcReceived s = zeros (lenG s - 1) ↔ ¬ (2 ≤ gs.count true ∨ d.length ≤ e) := by
    rw [crcReceived_eq_zeros_iff (hgen ▸ h0) (by omega), hword, hgen,
      dvd_bitsPoly_flipBit_codeword hd h0 (hA ▸ he), bitsPoly_dvd_X_pow_iff h0]
    omega
  refine ⟨_, exec_crcVerify_next (by omega) (by omega) (by omega) (by omega) hlead, rfl, ?_⟩
  simp only [hpass, ite_not]

end Sys2Proof.Machine
end

section
/-! SUPPORT. The Hamming commands' next states, written out (41_hamming.md R150, R160, R170), and the redundancy as the
least `r` of its kind (R151). -/

namespace Sys2Proof.Machine

/-! ## The redundancy -/

theorem rbits_eq_of_least {m r : Nat} (h : LeastRedundancy m r) : rbits m = r := by
  obtain ⟨hsat, hmin⟩ := h
  have hle := rbits_le_of_le_two_pow hsat
  by_contra hne
  have hlt := hmin (rbits m) (by omega)
  have := (rbits_least m).1
  omega

theorem rbits_mono {m m' : Nat} (h : m ≤ m') : rbits m ≤ rbits m' := by
  have := (rbits_least m').1
  exact rbits_le_of_le_two_pow (by omega)

/-- Settles O40: the loop stops at the first value that meets the inequality, and what meets it for `m'` meets it for
`m`. -/
theorem rbitsIsLeastAndMonotone : Obligations.RbitsIsLeastAndMonotone := by
  unfold Obligations.RbitsIsLeastAndMonotone
  exact ⟨rbits_least, fun _ _ => rbits_mono⟩

/-- Settles O25: the loop's result is the witness, and 33 meets the inequality for every 32-bit ARG. -/
theorem hamRbitsCompletes : Obligations.HamRbitsCompletes := by
  unfold Obligations.HamRbitsCompletes
  exact fun s => ⟨rbits (argNat s), rbits_least _, rbits_argNat_le s, exec_hamRbits s⟩

/-- Settles O30: the command has one outcome, and it writes RESULT and STATUS. -/
theorem hamRbitsFrame : Obligations.HamRbitsFrame := by
  unfold Obligations.HamRbitsFrame
  intro s t h
  cases (exec_hamRbits s).symm.trans h
  rfl

/-! ## HAM_ENC and HAM_DEC -/

/-- Settles O26: with room for the packet, Y gets it, and its length is the data's and the redundancy. -/
theorem hamEncCompletes : Obligations.HamEncCompletes := by
  unfold Obligations.HamEncCompletes
  intro s r hr hfits
  obtain rfl := rbits_eq_of_least hr
  have hlen : (hamPacket (stringA s)).length = lenA s + rbits (lenA s) := by
    rw [length_hamPacket, stringA, length_prefixBits]
  refine ⟨hlen, ?_⟩
  rw [exec_hamEnc_ok hfits, putY_eq hlen]
  rfl

/-- Settles O28: both commands check the capacity before they write anything. -/
theorem hammingCapacityErrors : Obligations.HammingCapacityErrors := by
  unfold Obligations.HammingCapacityErrors
  refine fun s => ⟨exec_hamDec_badLength, fun r hr hlong => ?_⟩
  obtain rfl := rbits_eq_of_least hr
  exact exec_hamEnc_badLength hlong

/-- Settles O31: of HAM_DEC's four outcomes only the correction writes A, at the bit that the syndrome names. -/
theorem hamDecFrame : Obligations.HamDecFrame := by
  unfold Obligations.HamDecFrame
  intro s t h
  rcases Nat.lt_or_ge s.params.lMax (lenA s) with hlong | hfits
  · cases (exec_hamDec_badLength hlong).symm.trans h
    exact ⟨rfl, rfl, fun _ hj => absurd rfl hj, fun _ => rfl, fun he => absurd rfl he⟩
  by_cases he : hamSyndrome s = 0
  · cases (exec_hamDec_clean hfits he).symm.trans h
    exact ⟨rfl, rfl, fun _ hj => absurd rfl hj, nofun, fun _ => rfl⟩
  rcases Nat.lt_or_ge (lenA s) (hamSyndrome s) with hgt | hle
  · cases (exec_hamDec_uncorrectable hfits hgt).symm.trans h
    exact ⟨rfl, rfl, fun _ hj => absurd rfl hj, nofun, fun _ => rfl⟩
  · cases (exec_hamDec_corrected hfits he hle).symm.trans h
    refine ⟨rfl, length_flipBit _ _, fun j hj => ⟨rfl, ?_⟩, nofun, fun _ => rfl⟩
    have hbit : j = hamSyndrome s - 1 := by
      by_contra hne
      exact hj ((bitAt_flipBit _ _ _).trans (if_neg fun h => hne h.1))
    omega

end Sys2Proof.Machine
end

section
/-! SUPPORT. The syndrome (41_hamming.md R170, R171): checks past the string add nothing, so the checks that the model
makes (log 10) give the sum over all of them. -/

namespace Sys2Proof.Machine

theorem syndromeBit_of_lt (p : Bits) {n i : Nat} (h : n < 2 ^ i) : syndromeBit p n i = 0 := by
  rw [syndromeBit, checkCount_of_lt p true h]

/-- From a check past the string on, further checks change nothing (41_hamming.md R171). -/
theorem syndromeOver_of_le (p : Bits) {n c r : Nat} (hc : n < 2 ^ c) (hr : c ≤ r) :
    syndromeOver p n r = syndromeOver p n c := by
  induction r, hr using Nat.le_induction with
  | base => rfl
  | succ r hcr ih =>
    have hlt : n < 2 ^ r := hc.trans_le (Nat.pow_le_pow_right (by decide) hcr)
    rw [syndromeOver_succ, syndromeBit_of_lt p hlt, ih, Nat.zero_mul, Nat.add_zero]

theorem syndromeOver_checksMade (p : Bits) (n r : Nat) :
    syndromeOver p n (checksMade n r) = syndromeOver p n r := by
  unfold checksMade
  rcases Nat.le_total r (n.log2 + 1) with hle | hge
  · rw [Nat.min_eq_left hle]
  · rw [Nat.min_eq_right hge, syndromeOver_of_le p Nat.lt_log2_self hge]

/-- HAM_DEC's error position is the syndrome over all `ARG` checks (log 10). -/
theorem hamSyndrome_eq_syndromeOver (s : State) :
    hamSyndrome s = syndromeOver (stringA s) (lenA s) (argNat s) :=
  syndromeOver_checksMade _ _ _

theorem syndromeOver_lt_two_pow_size (p : Bits) (n r : Nat) : syndromeOver p n r < 2 ^ n.size := by
  rcases Nat.le_total r n.size with hle | hge
  · exact (syndromeOver_lt p n r).trans_le (Nat.pow_le_pow_right (by decide) hle)
  · rw [syndromeOver_of_le p (Nat.lt_size_self n) hge]
    exact syndromeOver_lt p n n.size

theorem two_pow_size_le {n : Nat} (h : 1 ≤ n) : 2 ^ n.size ≤ 2 * n := by
  obtain ⟨k, hk⟩ := Nat.exists_eq_add_one.mpr (Nat.size_pos.mpr h)
  have : 2 ^ k ≤ n := Nat.lt_size.mp (by omega)
  rw [hk, Nat.pow_succ]
  omega

/-- The syndrome is bounded by the bit length of the string's length (41_hamming.md R171). -/
theorem syndromeOver_bounds (p : Bits) (n r : Nat) :
    syndromeOver p n r ≤ 2 ^ n.size - 1 ∧ (1 ≤ n → syndromeOver p n r < 2 * n) ∧
      (n ≤ 32768 → syndromeOver p n r ≤ 65535) := by
  have hlt := syndromeOver_lt_two_pow_size p n r
  refine ⟨by omega, fun hn => hlt.trans_le (two_pow_size_le hn), fun hn => ?_⟩
  have hsize : n.size ≤ 16 := Nat.size_le.mpr (by omega)
  have : 2 ^ n.size ≤ 2 ^ 16 := Nat.pow_le_pow_right (by decide) hsize
  omega

/-- The checks of a packet reach past its last position (41_hamming.md R143). -/
theorem packetLength_lt (m : Nat) : m + rbits m < 2 ^ rbits m := (rbits_least m).1

/-- Settles O47: a check past the string covers no position of it. -/
theorem checksPastThePacketAddNothing : Obligations.ChecksPastThePacketAddNothing := by
  unfold Obligations.ChecksPastThePacketAddNothing
  refine fun p n => ⟨fun i => syndromeBit_of_lt p, syndromeOver_bounds p n, ?_, syndromeOver_checksMade p n⟩
  rintro m r rfl hr
  exact syndromeOver_of_le p (packetLength_lt m) hr

/-- Settles O27: the three outcomes, told apart by the syndrome over all ARG checks. -/
theorem hamDecCompletes : Obligations.HamDecCompletes := by
  unfold Obligations.HamDecCompletes
  intro s e hfits he
  obtain rfl : e = hamSyndrome s := he.trans (hamSyndrome_eq_syndromeOver s).symm
  refine ⟨fun h0 => ?_, exec_hamDec_corrected hfits, exec_hamDec_uncorrectable hfits⟩
  rw [exec_hamDec_clean hfits h0, h0]
  rfl

/-- A flipped position within reach of the checks adds itself to the syndrome (41_hamming.md R173, R174). -/
theorem syndromeOver_flipBit {p : Bits} {n c k : Nat} (hk : k < p.length) (hn : k < n) (hc : n < 2 ^ c) :
    syndromeOver (flipBit p k) n c = syndromeOver p n c ^^^ (k + 1) := by
  refine Nat.eq_of_testBit_eq fun i => ?_
  rw [Nat.testBit_xor, testBit_syndromeOver, testBit_syndromeOver]
  by_cases hi : i < c
  · have hbit : syndromeBit (flipBit p k) n i = (syndromeBit p n i + ((k + 1).testBit i).toNat) % 2 := by
      rw [syndromeBit, checkCount_flipBit hk, decide_eq_true hn, Bool.true_and, covers_eq_testBit, syndromeBit,
        Nat.mod_add_mod]
    have hlt := syndromeBit_lt p n i
    rw [hbit]
    generalize syndromeBit p n i = b at hlt ⊢
    interval_cases b <;> cases (k + 1).testBit i <;> simp [hi]
  · have hpos : k + 1 < 2 ^ i := by
      have : 2 ^ c ≤ 2 ^ i := Nat.pow_le_pow_right (by decide) (by omega)
      omega
    simp [hi, Nat.testBit_lt_two_pow hpos]

end Sys2Proof.Machine
end

section
/-! SUPPORT. The packet (41_hamming.md R160): its parity positions are the powers of two (R143), its checks are even
(R161), and its data positions hold the data (R162). -/

namespace Sys2Proof.Machine

/-! ## Positions -/

/-- Every parity position of a packet lies before its last position (41_hamming.md R143). -/
theorem two_pow_lt_packetLength {m i : Nat} (hi : i < rbits m) : 2 ^ i < m + rbits m := by
  have := (rbits_least m).2 i hi
  omega

theorem parityPosition_iff (m p : Nat) :
    (1 ≤ p ∧ p ≤ m + rbits m ∧ isPow2 p = true) ↔ ∃ i < rbits m, p = 2 ^ i := by
  rw [isPow2_iff]
  constructor
  · rintro ⟨-, hle, i, rfl⟩
    exact ⟨i, (Nat.pow_lt_pow_iff_right (by decide)).mp (hle.trans_lt (packetLength_lt m)), rfl⟩
  · rintro ⟨i, hi, rfl⟩
    exact ⟨Nat.one_le_two_pow, (two_pow_lt_packetLength hi).le, i, rfl⟩

/-- The indices `j < n` at which the position `j + p` is a data position (41_hamming.md R141). -/
def dataIndices (n p : Nat) : List Nat := (List.range n).filter fun j => !isPow2 (j + p)

theorem dataOf_eq (p : Bits) : dataOf p = (dataIndices p.length 1).map (bitAt p) := rfl

theorem mem_dataIndices {n p j : Nat} : j ∈ dataIndices n p ↔ j < n ∧ isPow2 (j + p) = false := by
  simp [dataIndices]

theorem dataIndices_succ (n p : Nat) :
    dataIndices (n + 1) p = (if isPow2 p then [] else [0]) ++ (dataIndices n (p + 1)).map Nat.succ := by
  have hshift : (fun j => !isPow2 (j + p)) ∘ Nat.succ = fun j => !isPow2 (j + (p + 1)) := by
    funext j
    rw [Function.comp_apply, Nat.succ_add_eq_add_succ]
  rw [dataIndices, List.range_succ_eq_map, List.filter_cons, List.filter_map, hshift, Nat.zero_add, ← dataIndices]
  cases isPow2 p <;> rfl

/-- A packet has as many parity positions as checks, each a power of two. -/
theorem count_parityIndices (m : Nat) :
    (List.range (m + rbits m)).countP (fun j => isPow2 (j + 1)) = rbits m := by
  have himage : (Finset.range (m + rbits m)).filter (fun j => isPow2 (j + 1) = true) =
      (Finset.range (rbits m)).image (2 ^ · - 1) := by
    ext j
    have hiff := parityPosition_iff m (j + 1)
    simp only [Finset.mem_filter, Finset.mem_range, Finset.mem_image]
    constructor
    · rintro ⟨hj, hp⟩
      obtain ⟨i, hi, he⟩ := hiff.mp ⟨by omega, by omega, hp⟩
      exact ⟨i, hi, by omega⟩
    · rintro ⟨i, hi, he⟩
      have := Nat.two_pow_pos i
      obtain ⟨-, hj, hp⟩ := hiff.mpr ⟨i, hi, by omega⟩
      exact ⟨by omega, hp⟩
  have hinj : Function.Injective (2 ^ · - 1 : Nat → Nat) := fun i j hij => by
    have hi := Nat.two_pow_pos i
    have hj := Nat.two_pow_pos j
    exact Nat.pow_right_injective le_rfl (by simp only at hij ⊢; omega)
  have hcount := Nat.count_eq_card_filter_range (fun j => isPow2 (j + 1) = true) (m + rbits m)
  rw [himage, Finset.card_image_of_injective _ hinj, Finset.card_range] at hcount
  simpa [Nat.count] using hcount

theorem length_dataIndices (m : Nat) : (dataIndices (m + rbits m) 1).length = m := by
  have htotal := List.length_eq_countP_add_countP (fun j => isPow2 (j + 1)) (l := List.range (m + rbits m))
  rw [List.length_range, count_parityIndices] at htotal
  rw [dataIndices, ← List.countP_eq_length_filter]
  simp only [Bool.not_eq_true, Bool.decide_eq_false] at htotal
  omega

/-- Settles O41: the powers of two up to the packet's length are those below `2^r`, and there are `r` of them. -/
theorem parityPositionsOfAPacket : Obligations.ParityPositionsOfAPacket := by
  unfold Obligations.ParityPositionsOfAPacket
  refine ⟨rfl, ?_⟩
  rintro m n r rfl rfl hr
  exact ⟨parityPosition_iff m, length_dataIndices m, two_pow_lt_packetLength (by omega), packetLength_lt m⟩

/-! ## The parity computation -/

/-- The parity bit of check `i` changes no other check's count: its position is in no other covering set
(41_hamming.md R142). -/
theorem checkCount_setParity_of_ne {i c : Nat} (h : i ≠ c) (n : Nat) (w : Bits) :
    checkCount (setParity n w c) i n true = checkCount w i n true := by
  refine checkCount_congr fun j h1 _ hcov _ => ?_
  rw [setParity, bitAt_set, if_neg]
  rintro ⟨hj, -⟩
  obtain rfl : j = 2 ^ c := by have := Nat.two_pow_pos c; omega
  rw [covers_two_pow, decide_eq_true_eq] at hcov
  exact h hcov.symm

/-- The parity bit of a check makes its own count even (41_hamming.md R161). -/
theorem checkCount_setParity_self {n c : Nat} {w : Bits} (hn : 2 ^ c ≤ n) (hw : w.length = n) :
    checkCount (setParity n w c) c n true % 2 = 0 := by
  have hpos := Nat.two_pow_pos c
  have hdata : checkCount (setParity n w c) c n false = checkCount w c n false := by
    refine checkCount_congr fun j h1 _ _ hself => ?_
    have hj : j ≠ 2 ^ c := hself.resolve_left Bool.false_ne_true
    rw [setParity, bitAt_set, if_neg (by omega)]
  have hbit : bitAt (setParity n w c) (2 ^ c - 1) = (checkCount w c n false % 2 == 1) := by
    rw [setParity, bitAt_set, if_pos (by omega)]
  rw [checkCount_self _ hn, hdata, hbit]
  rcases Nat.mod_two_eq_zero_or_one (checkCount w c n false) with h | h <;> (rw [Nat.add_mod, h]; rfl)

/-- The parities of the checks below `c` are set one after the other, and each stays as it was set. -/
theorem checkCount_setParities {n c i : Nat} {w : Bits} (hn : ∀ k < c, 2 ^ k ≤ n) (hw : w.length = n) (hi : i < c) :
    checkCount ((List.range c).foldl (setParity n) w) i n true % 2 = 0 := by
  induction c with
  | zero => omega
  | succ c ih =>
    rw [List.range_succ, List.foldl_append, List.foldl_cons, List.foldl_nil]
    by_cases he : i = c
    · subst he
      exact checkCount_setParity_self (hn i hi) (by rw [length_setParities, hw])
    · rw [checkCount_setParity_of_ne he]
      exact ih (fun k hk => hn k (by omega)) (by omega)

/-- Settles O42: the parity computation makes each check's count even and disturbs no other check. -/
theorem packetParityIsEven : Obligations.PacketParityIsEven := by
  unfold Obligations.PacketParityIsEven
  rintro d n i rfl hi
  exact checkCount_setParities (fun k hk => (two_pow_lt_packetLength hk).le) (length_place _ _ _) hi

/-! ## The data -/

theorem bitAt_setParities_of_data {j : Nat} (h : isPow2 (j + 1) = false) (n : Nat) (w : Bits) (l : List Nat) :
    bitAt (l.foldl (setParity n) w) j = bitAt w j := by
  induction l generalizing w with
  | nil => rfl
  | cons i l ih =>
    rw [List.foldl_cons, ih, setParity, bitAt_set, if_neg]
    rintro ⟨rfl, -⟩
    rw [Nat.sub_add_cancel Nat.one_le_two_pow, (isPow2_iff _).mpr ⟨i, rfl⟩] at h
    exact absurd h (by decide)

/-- Placement puts the data bits at the data positions in order (41_hamming.md R160). -/
theorem map_bitAt_place (n p : Nat) (d : Bits) :
    (dataIndices n p).map (bitAt (place n p d)) = prefixBits (dataIndices n p).length d := by
  induction n generalizing p d with
  | zero => rfl
  | succ n ih =>
    rw [dataIndices_succ, place]
    cases hp : isPow2 p
    · cases d <;> simp [prefixBits, ← ih, Function.comp_def]
    · simp [← ih, Function.comp_def]

/-- Settles O43: the data indices number as many as the data bits, and the parities are set elsewhere. -/
theorem packetCarriesItsData : Obligations.PacketCarriesItsData := by
  unfold Obligations.PacketCarriesItsData
  refine fun d => ⟨length_hamPacket d, ?_⟩
  calc
    dataOf (hamPacket d) = (dataIndices (d.length + rbits d.length) 1).map (bitAt (hamPacket d)) := by
      rw [dataOf_eq, length_hamPacket]
    _ = (dataIndices (d.length + rbits d.length) 1).map (bitAt (place (d.length + rbits d.length) 1 d)) :=
      List.map_congr_left fun j hj => bitAt_setParities_of_data (mem_dataIndices.mp hj).2 _ _ _
    _ = d := by rw [map_bitAt_place, length_dataIndices, prefixBits_length]

end Sys2Proof.Machine
end

section
/-! SUPPORT. HAM_DEC on a packet with no, one or two flipped positions (41_hamming.md R172 to R174). -/

namespace Sys2Proof.Machine

/-! ## The syndromes -/

theorem syndromeOver_hamPacket (d : Bits) :
    syndromeOver (hamPacket d) (d.length + rbits d.length) (rbits d.length) = 0 := by
  refine Nat.zero_of_testBit_eq_false fun i => ?_
  rw [testBit_syndromeOver]
  by_cases hi : i < rbits d.length
  · simp [syndromeBit, packetParityIsEven d _ i rfl hi]
  · simp [hi]

theorem flipBit_flipBit (w : Bits) (k : Nat) : flipBit (flipBit w k) k = w :=
  bits_ext (by simp) fun j _ => by
    simp only [bitAt_flipBit, length_flipBit]
    split <;> simp

theorem prefixBits_flipBit {n k : Nat} {w : Bits} (hk : k < n) (hn : n ≤ w.length) :
    prefixBits n (flipBit w k) = flipBit (prefixBits n w) k :=
  bits_ext (by simp) fun j hj => by
    rw [length_prefixBits] at hj
    have hkw : k < w.length := by omega
    simp [bitAt_prefixBits, bitAt_flipBit, hj, hk, hkw]

section Flips
variable {d : Bits} {p : Nat} (h1 : 1 ≤ p) (hp : p ≤ d.length + rbits d.length)
include h1 hp

/-- One more flipped position of a packet is XORed onto the syndrome. -/
theorem syndromeOver_flipPosition {w : Bits} (hw : w.length = d.length + rbits d.length) :
    syndromeOver (flipBit w (p - 1)) (d.length + rbits d.length) (rbits d.length) =
      syndromeOver w (d.length + rbits d.length) (rbits d.length) ^^^ p := by
  rw [syndromeOver_flipBit (by omega) (by omega) (packetLength_lt _), Nat.sub_add_cancel h1]

theorem syndromeOver_oneFlip :
    syndromeOver (flipBit (hamPacket d) (p - 1)) (d.length + rbits d.length) (rbits d.length) = p := by
  rw [syndromeOver_flipPosition h1 hp (length_hamPacket d), syndromeOver_hamPacket, Nat.zero_xor]

theorem syndromeOver_twoFlips {q : Nat} (h1' : 1 ≤ q) (hq : q ≤ d.length + rbits d.length) :
    syndromeOver (flipBit (flipBit (hamPacket d) (p - 1)) (q - 1)) (d.length + rbits d.length) (rbits d.length) =
      p ^^^ q := by
  rw [syndromeOver_flipPosition h1' hq (by simp), syndromeOver_oneFlip h1 hp]

end Flips

/-! ## The command -/

theorem hamSyndrome_of_operands {s : State} {w : Bits} {n r : Nat} (hA : lenA s = n) (hr : s.arg.toNat = r)
    (hw : prefixBits (lenA s) s.a = w) : hamSyndrome s = syndromeOver w n r := by
  rw [hamSyndrome_eq_syndromeOver, stringA, hw, hA, argNat, hr]

/-- Settles O44: every check of a packet is even, so its syndrome is 0. -/
theorem cleanPacketDecodesToZero : Obligations.CleanPacketDecodesToZero := by
  unfold Obligations.CleanPacketDecodesToZero
  intro s d hfits hA hr hw
  have he : hamSyndrome s = 0 := (hamSyndrome_of_operands hA hr hw).trans (syndromeOver_hamPacket d)
  rw [exec_hamDec_clean (by omega) he, he]
  rfl

/-- Settles O45: the syndrome is the flipped position, and a second inversion restores it. -/
theorem singleErrorIsCorrected : Obligations.SingleErrorIsCorrected := by
  unfold Obligations.SingleErrorIsCorrected
  intro s d p hmem hfits hA hr h1 hp hw
  obtain ⟨ha, -, -⟩ := hmem
  have he : hamSyndrome s = p := (hamSyndrome_of_operands hA hr hw).trans (syndromeOver_oneFlip h1 (hA ▸ hp))
  constructor
  · rw [exec_hamDec_corrected (by omega) (by omega) (by omega), he]
    rfl
  · rw [prefixBits_flipBit (by omega) (by omega), hw, flipBit_flipBit]

theorem xor_ne_left (p : Nat) {q : Nat} (hq : 1 ≤ q) : p ^^^ q ≠ p := fun h => by
  have : q = 0 := Nat.xor_right_inj.mp (h.trans (Nat.xor_zero p).symm)
  omega

/-- Settles O46: the syndrome is `p XOR q`, which is neither 0 nor one of the two positions. -/
theorem doubleErrorOutcomes : Obligations.DoubleErrorOutcomes := by
  unfold Obligations.DoubleErrorOutcomes
  intro s d p q e hfits hA hr h1 hp h1' hq hne hpq hw
  have he : hamSyndrome s = e := by
    rw [hamSyndrome_of_operands hA hr hw, syndromeOver_twoFlips h1 (hA ▸ hp) h1' (hA ▸ hq), hpq]
  have h0 : e ≠ 0 := by rwa [hpq, Ne, Nat.xor_eq_zero_iff]
  refine ⟨h0, fun hgt => ?_, fun hle => ⟨?_, ?_, ?_⟩⟩
  · rw [exec_hamDec_uncorrectable (by omega) (he ▸ hgt), he]
    rfl
  · exact hpq ▸ xor_ne_left p h1'
  · exact hpq ▸ Nat.xor_comm p q ▸ xor_ne_left q h1
  · rw [exec_hamDec_corrected (by omega) (by omega) (he.trans_le hle), he]
    rfl

end Sys2Proof.Machine
end

section
/-! SUPPORT. What a completion reports, and what it writes where it reports an error (60_exceptions.md R181 to R184). -/

namespace Sys2Proof.Machine

/-! ## The report of a command -/

/-- How the completion of command `i` in `s` ends: without error; with an error raised before anything was written; or
with HAM_DEC's UNCORRECTABLE_SYNDROME, raised after its write of RESULT (60_exceptions.md R183). -/
inductive CommandReport (i : Instr) (s t : State) : Prop
  | success (he : t.err = .noError)
  | error (k : ErrorKind) (hk : k = .badLength ∨ k = .inputTooShort ∨ k = .invalidGenerator) (ht : t = complete k s)
  | uncorrectable (hi : i = .hamDec) (ht : t = complete .uncorrectableSyndrome (putResult (hamSyndrome s) s))

section Reports
variable {s t : State}

theorem crcRem_report (h : exec .crcRem s = .next t) : CommandReport .crcRem s t := by
  cases hc : crcCheck (crcRemTooShort s) s with
  | some k =>
    cases (exec_crcRem_error hc).symm.trans h
    exact .error k (crcCheck_some hc) rfl
  | none =>
    cases (exec_crcRem_ok hc).symm.trans h
    exact .success rfl

theorem crcVerify_report (h : exec .crcVerify s = .next t) : CommandReport .crcVerify s t := by
  cases hc : crcCheck (crcVerifyTooShort s) s with
  | some k =>
    cases (exec_crcVerify_error hc).symm.trans h
    exact .error k (crcCheck_some hc) rfl
  | none =>
    cases (exec_crcVerify_ok hc).symm.trans h
    exact .success rfl

theorem hamRbits_report (h : exec .hamRbits s = .next t) : CommandReport .hamRbits s t := by
  cases (exec_hamRbits s).symm.trans h
  exact .success rfl

theorem hamEnc_report (h : exec .hamEnc s = .next t) : CommandReport .hamEnc s t := by
  rcases Nat.lt_or_ge s.params.lMax (lenA s + rbits (lenA s)) with hlong | hfits
  · cases (exec_hamEnc_badLength hlong).symm.trans h
    exact .error .badLength (.inl rfl) rfl
  · cases (exec_hamEnc_ok hfits).symm.trans h
    exact .success rfl

theorem hamDec_report (h : exec .hamDec s = .next t) : CommandReport .hamDec s t := by
  rcases Nat.lt_or_ge s.params.lMax (lenA s) with hlong | hfits
  · cases (exec_hamDec_badLength hlong).symm.trans h
    exact .error .badLength (.inl rfl) rfl
  by_cases he : hamSyndrome s = 0
  · cases (exec_hamDec_clean hfits he).symm.trans h
    exact .success rfl
  rcases Nat.lt_or_ge (lenA s) (hamSyndrome s) with hgt | hle
  · cases (exec_hamDec_uncorrectable hfits hgt).symm.trans h
    exact .uncorrectable rfl rfl
  · cases (exec_hamDec_corrected hfits he hle).symm.trans h
    exact .success rfl

theorem exec_report {i : Instr} (h : exec i s = .next t) : CommandReport i s t := by
  cases i with
  | crcRem => exact crcRem_report h
  | crcVerify => exact crcVerify_report h
  | hamRbits => exact hamRbits_report h
  | hamEnc => exact hamEnc_report h
  | hamDec => exact hamDec_report h

/-- A command whose word decodes never reports ILLEGAL_COMMAND (30_encoding.md R95). -/
theorem exec_err_ne_illegalCommand {i : Instr} (h : exec i s = .next t) : t.err ≠ .illegalCommand := by
  cases exec_report h with
  | success he => simp [he]
  | error k hk ht => rcases hk with rfl | rfl | rfl <;> simp [ht]
  | uncorrectable hi ht => simp [ht]

theorem engineStep_illegalCommand_iff (h : engineStep s = .next t) :
    t.err = .illegalCommand ↔ ∃ why, decode s.cmd = .illegal why := by
  cases hd : decode s.cmd with
  | command i => simpa using exec_err_ne_illegalCommand (engineStep_command hd ▸ h)
  | illegal why =>
    cases (engineStep_illegal hd).symm.trans h
    exact iff_of_true rfl ⟨why, rfl⟩

end Reports

/-! ## The obligations about completions -/

/-- Settles O6: the engine moves, and decodes the latched word to the command. -/
theorem stepRunsTheLatchedCommand : Obligations.StepRunsTheLatchedCommand := by
  unfold Obligations.StepRunsTheLatchedCommand
  exact fun s i he hd => (step_engine he).trans (engineStep_command hd)

/-- Settles O32: of the errors, only UNCORRECTABLE_SYNDROME is raised after a write, HAM_DEC's of RESULT. -/
theorem errorsLeaveOnlyTheNamedState : Obligations.ErrorsLeaveOnlyTheNamedState := by
  unfold Obligations.ErrorsLeaveOnlyTheNamedState
  intro s t he h herr
  rw [step_engine he] at h
  cases hd : decode s.cmd with
  | illegal why =>
    cases (engineStep_illegal hd).symm.trans h
    exact ⟨fun _ => rfl, nofun⟩
  | command i =>
    cases exec_report (engineStep_command hd ▸ h) with
    | success hok => exact absurd hok herr
    | error k hk ht =>
      subst ht
      refine ⟨fun _ => rfl, fun h3 => ?_⟩
      rcases hk with rfl | rfl | rfl <;> cases h3
    | uncorrectable hi ht =>
      subst ht hi
      exact ⟨fun hne => absurd rfl hne, fun _ => ⟨rfl, decodedWordIsTheEncodedWord _ _ hd⟩⟩

/-- Settles O33: a completion leaves the engine idle with `rst` released, so a write of CMD is accepted. -/
theorem everyCommandCompletes : Obligations.EveryCommandCompletes := by
  unfold Obligations.EveryCommandCompletes
  intro s he
  obtain ⟨t, ht, hbusy, hdone, hrst, -⟩ := step_completes he
  have ⟨_, hr, _⟩ := he
  have hreleased : t.rst = false := hrst.trans hr
  refine ⟨t, ht, hbusy, hdone, engineStep_illegalCommand_iff (step_engine he ▸ ht), fun v => ?_⟩
  rw [write_reg hreleased, writeReg_cmd_idle hbusy]
  exact ⟨_, _, rfl⟩

end Sys2Proof.Machine
end

section
/-! SUPPORT. Admitted events (20_memory.md R62, R65; 70_reset_and_hazards.md R210): they take effect, and the events
behind them stay admitted, so an admitted run never stops (93_implementation_defined.md section 1). -/

namespace Sys2Proof.Machine

/-- The level of `rst` behind an event. -/
def rstAfter (rst : Bool) : PortEvent → Bool
  | .read _ _ => rst
  | .write _ _ _ => rst
  | .rst level => level

theorem portAdmitted_cons (p : Params) (rst : Bool) (e : PortEvent) (rest : List PortEvent) :
    portAdmitted p rst (e :: rest) = (e.wf p rst && portAdmitted p (rstAfter rst e) rest) := by
  cases e <;> rfl

@[simp] theorem readLoc_rst (l : Loc) (s : State) : (readLoc l s).rst = s.rst := by rw [readLoc_frame]

@[simp] theorem readLoc_port (l : Loc) (s : State) : (readLoc l s).port = s.port := by rw [readLoc_frame]

/-- A write leaves alone the level of `rst` and the events still to come. -/
theorem writeLoc_rst_port (v : Word) (l : Loc) (s : State) :
    (writeLoc v l s).rst = s.rst ∧ (writeLoc v l s).port = s.port := by
  rcases writeLoc_cases v l s with
    e | ⟨-, e⟩ | ⟨-, -, e⟩ | ⟨-, e⟩ | ⟨-, e⟩ | ⟨-, _, _, _, _, _, -, -, e⟩ <;> rw [e] <;> exact ⟨rfl, rfl⟩

theorem driveRst_rst_port (level : Bool) (s : State) :
    (driveRst level s).rst = level ∧ (driveRst level s).port = s.port := by
  unfold driveRst
  cases level with
  | false => exact ⟨rfl, rfl⟩
  | true => cases hr : s.rst <;> exact ⟨by simp [assertReset, hr], rfl⟩

theorem portEvent_rst_port {e : PortEvent} {s t : State} (h : portEvent e s = .next t) :
    t.rst = rstAfter s.rst e ∧ t.port = s.port := by
  rcases portEvent_cases h with ⟨addr, rfl, -, -, rfl⟩ | ⟨addr, v, rfl, -, -, rfl⟩ | ⟨level, rfl, rfl⟩
  · exact ⟨readLoc_rst _ s, readLoc_port _ s⟩
  · exact writeLoc_rst_port v _ s
  · exact driveRst_rst_port level s

theorem portEvent_admitted {e : PortEvent} {s : State} (h : e.wf s.params s.rst = true) :
    ∃ t, portEvent e s = .next t := by
  cases e with
  | read addr size | write addr size v =>
    simp only [PortEvent.wf, Bool.and_eq_true, Bool.not_eq_true', decide_eq_true_eq] at h
    obtain ⟨hr, ha⟩ := h
    exact ⟨_, access_admitted hr ha⟩
  | rst level => exact ⟨_, rfl⟩

/-- A block whose waiting events are admitted makes a step, and those still waiting are admitted. -/
theorem step_admitted {s : State} (h : portAdmitted s.params s.rst s.port = true) :
    ∃ t, step s = .next t ∧ portAdmitted t.params t.rst t.port = true := by
  by_cases he : EngineMoves s
  · obtain ⟨t, ht, -, -, hrst, hport, -⟩ := step_completes he
    exact ⟨t, ht, by rwa [step_params ht, hrst, hport]⟩
  cases hp : s.port with
  | nil => exact ⟨s, step_idle he hp, h⟩
  | cons e rest =>
    rw [hp, portAdmitted_cons, Bool.and_eq_true] at h
    obtain ⟨hwf, hrest⟩ := h
    obtain ⟨t, ht⟩ := portEvent_admitted (s := takeTurn rest s) hwf
    obtain ⟨hrst, hport⟩ := portEvent_rst_port ht
    refine ⟨t, (step_host he hp).trans ht, ?_⟩
    rw [portEvent_params ht, hrst, hport]
    exact hrest

/-- Settles O51: each step keeps the waiting events admitted. -/
theorem admittedRunNeverStops : Obligations.AdmittedRunNeverStops := by
  unfold Obligations.AdmittedRunNeverStops
  intro s n h
  induction n generalizing s with
  | zero => exact ⟨s, rfl, h⟩
  | succ n ih =>
    obtain ⟨u, hu, hadm⟩ := step_admitted h
    obtain ⟨t, ht, hadm'⟩ := ih u hadm
    exact ⟨t, (run_step hu).trans ht, hadm'⟩

end Sys2Proof.Machine
end

section
/-! SUPPORT. A run of a busy block ends: each of its steps completes the command, or a reset abandons it, or a host turn
is taken, and a host beside it cannot step for ever without taking one (60_exceptions.md R182; 20_memory.md R70;
70_reset_and_hazards.md R223; log 6). -/

namespace Sys2Proof.Machine

/-! ## The block -/

/-- The block runs a command, out of reset, with `turns` host turns left before the completion. -/
structure Running (turns : Nat) (s : State) : Prop where
  busy : s.busy = true
  rst : s.rst = false
  hostTurns : s.hostTurns = turns

/-- A host event beside a running command takes one host turn, unless it is a reset, which ends the run. -/
theorem portEvent_running {turns : Nat} {e : PortEvent} {rest : List PortEvent} {s t : State}
    (hrun : Running (turns + 1) s) (h : portEvent e (takeTurn rest s) = .next t) :
    t.busy = false ∨ Running turns t := by
  obtain ⟨hb, hr, hn⟩ := hrun
  have hleft : (takeTurn rest s).hostTurns = turns := by simp [hn]
  rcases portEvent_cases h with ⟨addr, -, -, -, rfl⟩ | ⟨addr, v, -, -, -, rfl⟩ | ⟨level, -, rfl⟩
  · rw [readLoc_frame]
    exact .inr ⟨hb, hr, hleft⟩
  · rw [writeLoc_busy_frame (s := takeTurn rest s) hb]
    exact .inr ⟨hb, hr, hleft⟩
  · cases level with
    | false => exact .inr ⟨hb, rfl, hleft⟩
    | true => exact .inl (by simp [driveRst, hr, assertReset, State.afterReset])

theorem step_running {turns : Nat} {s t : State} (hrun : Running turns s) (h : step s = .next t) :
    t.busy = false ∨ ∃ left, turns = left + 1 ∧ Running left t := by
  rcases step_cases h with ⟨he, -⟩ | ⟨he, e, rest, -, hev⟩ | ⟨he, hp, -⟩
  · obtain ⟨u, hu, hbusy, -⟩ := step_completes he
    cases h.symm.trans hu
    exact .inl hbusy
  · cases turns with
    | zero => exact absurd ⟨hrun.busy, hrun.rst, .inl hrun.hostTurns⟩ he
    | succ left => exact (portEvent_running hrun hev).imp_right fun hleft => ⟨left, rfl, hleft⟩
  · exact absurd ⟨hrun.busy, hrun.rst, .inr hp⟩ he

/-- Beside admitted events, a running command ends within the host turns left and one step more. -/
theorem run_running {turns : Nat} {s : State} (hrun : Running turns s)
    (hadm : portAdmitted s.params s.rst s.port = true) :
    ∃ n t, n ≤ turns + 1 ∧ Host.Core.run Sys2Proof.core n s = .next t ∧ t.busy = false := by
  obtain ⟨u, hu, hadm'⟩ := step_admitted hadm
  rcases step_running hrun hu with hidle | ⟨left, rfl, hrun'⟩
  · exact ⟨1, u, by omega, run_step hu, hidle⟩
  · obtain ⟨n, t, hn, ht, hidle⟩ := run_running hrun' hadm'
    exact ⟨n + 1, t, by omega, (run_step hu).trans ht, hidle⟩
termination_by turns

/-! ## What a host's step keeps admitted -/

theorem portAdmitted_of_forall {p : Params} {events : List PortEvent}
    (h : ∀ e ∈ events, e.wf p false = true ∧ rstAfter false e = false) : portAdmitted p false events = true := by
  induction events with
  | nil => rfl
  | cons e rest ih =>
    obtain ⟨⟨hwf, hrst⟩, hrest⟩ := List.forall_mem_cons.mp h
    rw [portAdmitted_cons, hwf, hrst, ih hrest, Bool.and_self]

/-- No statement of a host drives `rst` (30_encoding.md R97). -/
theorem rstAfter_stmtEvents {p : Params} {temps : List (Nat × Word)} {st : Stmt} {e : PortEvent}
    (he : e ∈ stmtEvents p temps st) (rst : Bool) : rstAfter rst e = rst := by
  cases st with
  | wr | rd | wrw | rdw =>
    obtain rfl := List.mem_singleton.mp he
    rfl
  | rdws x t =>
    obtain ⟨w, -, rfl⟩ := List.mem_map.mp he
    rfl
  | label | ifGoto => cases he

@[simp] theorem hostReceive_block (h : HostRun) (t : State) : (hostReceive h t).block = t := by
  unfold hostReceive
  split <;> rfl

@[simp] theorem hostReceive_prog (h : HostRun) (t : State) : (hostReceive h t).prog = h.prog := by
  unfold hostReceive
  split <;> rfl

theorem hostAdmitted_hostReceive {h : HostRun} {t : State} (ht : step h.block = .next t) (hadm : HostAdmitted h) :
    HostAdmitted (hostReceive h t) := by
  obtain ⟨hport, hprog⟩ := hadm
  obtain ⟨u, hu, hport'⟩ := step_admitted hport
  cases ht.symm.trans hu
  refine ⟨by simpa using hport', ?_⟩
  simpa [step_params ht] using hprog

/-- The host has handed the events of statement `st` to an empty port. -/
def issueStmt (st : Stmt) (h : HostRun) : HostRun :=
  { h with
    hpc := nextIndex h st, awaiting := h.awaiting ++ stmtFills h.temps st
    block := { h.block with
      port := stmtEvents h.block.params h.temps st
      hostTurns := if stmtEvents h.block.params h.temps st = [] then h.block.hostTurns - 1 else h.block.hostTurns } }

theorem hostStep_goesOn {h : HostRun} (hg : hostGoesOn h = true) :
    ∃ st ∈ h.prog, hostStep h = .next (issueStmt st h) := by
  simp only [hostGoesOn, Bool.and_eq_true, List.isEmpty_iff, decide_eq_true_eq, Bool.not_eq_true'] at hg
  obtain ⟨⟨hp, hlt⟩, hd⟩ := hg
  exact ⟨h.prog[h.hpc], List.getElem_mem hlt, hostStep_issue hp hd (List.getElem?_eq_getElem hlt)⟩

theorem hostAdmitted_issueStmt {h : HostRun} {st : Stmt} (hst : st ∈ h.prog) (hr : h.block.rst = false)
    (hadm : HostAdmitted h) : HostAdmitted (issueStmt st h) := by
  obtain ⟨-, hprog⟩ := hadm
  refine ⟨?_, hprog⟩
  change portAdmitted h.block.params h.block.rst (stmtEvents h.block.params h.temps st) = true
  rw [hr]
  exact portAdmitted_of_forall fun e he => ⟨hprog st hst h.temps e he, rstAfter_stmtEvents he false⟩

/-! ## A host beside the block -/

/-- Within `n` steps the block is idle; or a step is refused, and the host is not an admitted one. -/
def EndsWithin (n : Nat) (h : HostRun) : Prop :=
  ∃ m, m ≤ n ∧ ((∃ h', hostRunFor m h = .next h' ∧ h'.block.busy = false) ∨
    (¬ HostAdmitted h ∧ ∃ r, hostRunFor m h = .refused r))

theorem EndsWithin.of_idle {n : Nat} {h : HostRun} (hb : h.block.busy = false) : EndsWithin n h :=
  ⟨0, Nat.zero_le n, .inl ⟨h, rfl, hb⟩⟩

theorem EndsWithin.mono {n n' : Nat} {h : HostRun} (hends : EndsWithin n h) (hle : n ≤ n') : EndsWithin n' h := by
  obtain ⟨m, hm, hend⟩ := hends
  exact ⟨m, hm.trans hle, hend⟩

theorem EndsWithin.of_step {n : Nat} {h h' : HostRun} (hs : hostStep h = .next h')
    (hadm : HostAdmitted h → HostAdmitted h') (hends : EndsWithin n h') : EndsWithin (n + 1) h := by
  obtain ⟨m, hm, hend⟩ := hends
  refine ⟨m + 1, Nat.succ_le_succ hm, ?_⟩
  rw [hostRunFor_step hs]
  exact hend.imp_right fun ⟨hrefused, hr⟩ => ⟨mt hadm hrefused, hr⟩

/-- Where the block steps beside a running command: what is left to show is that the run ends after the host turn that
the step may have taken. -/
theorem endsWithin_block {n turns : Nat} {h : HostRun} (hrun : Running turns h.block) (hg : hostGoesOn h = false)
    (hnext : ∀ left h', turns = left + 1 → Running left h'.block → EndsWithin n h') : EndsWithin (n + 1) h := by
  cases hs : step h.block with
  | next t =>
    refine .of_step (hostStep_of_not_goesOn hg hs) (hostAdmitted_hostReceive hs) ?_
    rcases step_running hrun hs with hidle | ⟨left, hleft, hrun'⟩
    · exact .of_idle (by simpa using hidle)
    · exact hnext left _ hleft (by simpa using hrun')
  | fault r => cases r
  | refused r =>
    refine ⟨1, by omega, .inr ⟨fun ⟨hport, _⟩ => ?_, r, by simp [hostRunFor, hostStep, hg, hs]⟩⟩
    obtain ⟨t, ht, -⟩ := step_admitted hport
    cases hs.symm.trans ht

/-- Beside any host, a running command ends: a host turn takes at most two steps, one of the host and one of the
block. -/
theorem endsWithin_running {turns : Nat} {h : HostRun} (hrun : Running turns h.block) :
    EndsWithin (2 * turns + 1) h := by
  induction turns generalizing h with
  | zero =>
    have hdue : completionDue h.block = true := (completionDue_iff _).mpr ⟨hrun.busy, hrun.rst, hrun.hostTurns⟩
    exact endsWithin_block hrun (by simp [hostGoesOn, hdue]) nofun
  | succ turns ih =>
    have block : ∀ {g : HostRun}, Running (turns + 1) g.block → hostGoesOn g = false → EndsWithin (2 * turns + 2) g :=
      fun hrun' hg => endsWithin_block hrun' hg fun left g' hleft hrun'' => by cases hleft; exact ih hrun''
    cases hg : hostGoesOn h with
    | false => exact (block hrun hg).mono (by omega)
    | true =>
      obtain ⟨st, hst, hs⟩ := hostStep_goesOn hg
      refine .of_step hs (hostAdmitted_issueStmt hst hrun.rst) ?_
      by_cases hev : stmtEvents h.block.params h.temps st = []
      · have hrun' : Running turns (issueStmt st h).block :=
          ⟨hrun.busy, hrun.rst, by simp [issueStmt, hev, hrun.hostTurns]⟩
        exact (ih hrun').mono (by omega)
      · have hrun' : Running (turns + 1) (issueStmt st h).block :=
          ⟨hrun.busy, hrun.rst, by simp [issueStmt, hev, hrun.hostTurns]⟩
        exact block hrun' (by simp [hostGoesOn, issueStmt, hev])

/-- Settles O52: by the host turns left, beside waiting events and beside a host program. -/
theorem busyEndsWithinTheHostTurns : Obligations.BusyEndsWithinTheHostTurns := by
  unfold Obligations.BusyEndsWithinTheHostTurns
  exact ⟨fun s hb hr hadm => run_running ⟨hb, hr, rfl⟩ hadm, fun h hb hr => endsWithin_running ⟨hb, hr, rfl⟩⟩

end Sys2Proof.Machine
end

section
/-! SUPPORT. A second HAM_DEC on the string that the first has left (41_hamming.md R170; 70_reset_and_hazards.md R221),
whatever number of checks ARG names. -/

namespace Sys2Proof.Machine

/-- Fewer checks see the low bits of the syndrome. -/
theorem syndromeOver_mod_two_pow (p : Bits) (n : Nat) {c r : Nat} (hc : c ≤ r) :
    syndromeOver p n r % 2 ^ c = syndromeOver p n c :=
  Nat.eq_of_testBit_eq fun i => by
    rw [Nat.testBit_mod_two_pow, testBit_syndromeOver, testBit_syndromeOver]
    by_cases hi : i < c
    · simp [hi, hi.trans_le hc]
    · simp [hi]

/-- Inverting the position that a nonzero syndrome names clears it, even where the checks do not reach the end of the
string: the position is below `2 ^ c`, so the checks made are all that cover it. -/
theorem syndromeOver_flipNamed {p : Bits} {n c : Nat} (h0 : syndromeOver p n c ≠ 0) (hn : syndromeOver p n c ≤ n)
    (hp : syndromeOver p n c ≤ p.length) : syndromeOver (flipBit p (syndromeOver p n c - 1)) n c = 0 := by
  have hlt := syndromeOver_lt p n c
  have hmax : n < 2 ^ max c n := Nat.lt_two_pow_self.trans_le (Nat.pow_le_pow_right (by decide) (le_max_right c n))
  have hflip := syndromeOver_flipBit (p := p) (k := syndromeOver p n c - 1) (by omega) (by omega) hmax
  rw [Nat.sub_add_cancel (Nat.pos_of_ne_zero h0)] at hflip
  calc syndromeOver (flipBit p (syndromeOver p n c - 1)) n c
      = (syndromeOver p n (max c n) ^^^ syndromeOver p n c) % 2 ^ c := by
        rw [← syndromeOver_mod_two_pow _ n (le_max_left c n), hflip]
    _ = syndromeOver p n c ^^^ syndromeOver p n c := by
        rw [Nat.xor_mod_two_pow, syndromeOver_mod_two_pow p n (le_max_left c n), Nat.mod_eq_of_lt hlt]
    _ = 0 := Nat.xor_self _

/-- The correction leaves a string with no error to find. -/
theorem hamSyndrome_flipA {s : State} (hA : lenA s ≤ s.a.length) (he : hamSyndrome s ≠ 0)
    (hle : hamSyndrome s ≤ lenA s) : hamSyndrome (flipA (hamSyndrome s - 1) s) = 0 := by
  have hpos : hamSyndrome s - 1 < lenA s := by omega
  have hstring : stringA (flipA (hamSyndrome s - 1) s) = flipBit (stringA s) (hamSyndrome s - 1) :=
    prefixBits_flipBit hpos hA
  rw [hamSyndrome, hstring]
  exact syndromeOver_flipNamed he hle (hle.trans_eq (length_prefixBits _ _).symm)

/-- A HAM_DEC without error leaves a string within the capacity, with syndrome 0. -/
theorem exec_hamDec_noError {s t : State} (ha : s.a.length = s.params.lMax) (h : exec .hamDec s = .next t)
    (ht : t.err = .noError) : lenA t ≤ t.params.lMax ∧ hamSyndrome t = 0 := by
  rcases Nat.lt_or_ge s.params.lMax (lenA s) with hlong | hfits
  · cases (exec_hamDec_badLength hlong).symm.trans h
    exact absurd ht nofun
  by_cases he : hamSyndrome s = 0
  · cases (exec_hamDec_clean hfits he).symm.trans h
    exact ⟨hfits, he⟩
  rcases Nat.lt_or_ge (lenA s) (hamSyndrome s) with hgt | hle
  · cases (exec_hamDec_uncorrectable hfits hgt).symm.trans h
    exact absurd ht nofun
  · cases (exec_hamDec_corrected hfits he hle).symm.trans h
    have hsame : SameOperands (complete .noError (flipA (hamSyndrome s - 1) (putResult (hamSyndrome s) s)))
        (flipA (hamSyndrome s - 1) s) := ⟨rfl, rfl, rfl, rfl, fun _ _ => rfl, fun _ _ => rfl⟩
    exact ⟨hfits, hsame.hamSyndrome_eq.trans (hamSyndrome_flipA (hfits.trans_eq ha.symm) he hle)⟩

/-- Settles O48: the string that the first HAM_DEC left has syndrome 0. -/
theorem secondDecodeFindsNothing : Obligations.SecondDecodeFindsNothing := by
  unfold Obligations.SecondDecodeFindsNothing
  intro s t hi h ht
  obtain ⟨ha, -, -⟩ := hi.memory
  obtain ⟨hfits, he⟩ := exec_hamDec_noError ha h ht
  rw [exec_hamDec_clean hfits he, he]
  rfl

end Sys2Proof.Machine
end

section
/-! SUPPORT. Which steps can change the results, and which can hide a command from a polling host (10_state.md R41, R44;
60_exceptions.md R185; 70_reset_and_hazards.md R217, R218). -/

namespace Sys2Proof.Machine

/-! ## Results -/

/-- No write changes Y, Y_LEN or RESULT, and an acceptance is the only one that changes ERR (10_state.md R41, R46). -/
theorem writeLoc_results (v : Word) (l : Loc) (s : State) :
    (writeLoc v l s).y = s.y ∧ (writeLoc v l s).yLen = s.yLen ∧ (writeLoc v l s).result = s.result ∧
      ((writeLoc v l s).err = s.err ∨
        ((writeLoc v l s).err = .noError ∧ s.busy = false ∧ (writeLoc v l s).busy = true)) := by
  rcases writeLoc_cases v l s with
    e | ⟨-, e⟩ | ⟨-, hidle, e⟩ | ⟨-, e⟩ | ⟨-, e⟩ | ⟨-, _, _, _, _, _, -, -, e⟩ <;> rw [e]
  case inr.inr.inl => exact ⟨rfl, rfl, rfl, .inr ⟨rfl, hidle, rfl⟩⟩
  all_goals exact ⟨rfl, rfl, rfl, .inl rfl⟩

/-- Settles O54: a read, a release of `rst` and the idle step leave the results alone, and a write all but ERR. -/
theorem resultsLiveUntilACompletion : Obligations.ResultsLiveUntilACompletion := by
  unfold Obligations.ResultsLiveUntilACompletion
  intro s t he hrst h
  rcases step_cases h with ⟨hmoves, -⟩ | ⟨-, e, rest, hp, hev⟩ | ⟨-, -, rfl⟩
  · exact absurd hmoves he
  · rcases portEvent_cases hev with ⟨addr, -, -, -, rfl⟩ | ⟨addr, v, -, -, -, rfl⟩ | ⟨level, rfl, rfl⟩
    · rw [readLoc_frame]
      exact ⟨rfl, rfl, rfl, .inl rfl⟩
    · exact writeLoc_results v _ (takeTurn rest s)
    · cases level with
      | true => exact absurd hp (hrst rest)
      | false => exact ⟨rfl, rfl, rfl, .inl rfl⟩
  · exact ⟨rfl, rfl, rfl, .inl rfl⟩

/-! ## Polling -/

/-- A register is reached at its own offset only (10_state.md R24). -/
theorem eq_regOffset_of_locate {off : Nat} {r : Reg} (h : locate off = .reg r) : off = regOffset r := by
  unfold locate at h
  split_ifs at h
  split at h <;> cases h <;> rfl

/-- Of all writes only one of STATUS with bit 1 set can leave a block that shows BUSY or DONE with neither
(10_state.md R41, R44). -/
theorem writeLoc_shows {v : Word} {l : Loc} {s : State} (h : s.busy = true ∨ s.done = true)
    (hv : l = .reg .status → v.getLsbD 1 = false) :
    (writeLoc v l s).busy = true ∨ (writeLoc v l s).done = true := by
  rcases writeLoc_cases v l s with
    e | ⟨-, e⟩ | ⟨-, -, e⟩ | ⟨hl, e⟩ | ⟨-, e⟩ | ⟨-, _, _, _, _, _, -, -, e⟩ <;> rw [e]
  case inr.inr.inl => exact .inl rfl
  case inr.inr.inr.inl => simpa only [writeStatus_busy, writeStatus_done, hv hl, Bool.false_eq_true, if_false] using h
  all_goals exact h

/-- Settles O55: a completion sets DONE, an acceptance sets BUSY, and only the two excepted events clear either. -/
theorem pollingNeverMissesACommand : Obligations.PollingNeverMissesACommand := by
  unfold Obligations.PollingNeverMissesACommand
  intro s t hshow hrst hack h
  rcases step_cases h with ⟨he, -⟩ | ⟨-, e, rest, hp, hev⟩ | ⟨-, -, rfl⟩
  · obtain ⟨u, hu, -, hdone, -⟩ := step_completes he
    cases h.symm.trans hu
    exact .inr hdone
  · rcases portEvent_cases hev with ⟨addr, -, -, -, rfl⟩ | ⟨addr, v, rfl, -, ⟨⟨hbase, -⟩, -⟩, rfl⟩ | ⟨level, rfl, rfl⟩
    · rw [readLoc_frame]
      exact hshow
    · refine writeLoc_shows (s := takeTurn rest s) hshow fun hl => Bool.eq_false_of_not_eq_true fun hv => ?_
      have haddr : addr = regAddr s.params .status := by
        have hoff := eq_regOffset_of_locate hl
        rw [takeTurn_params] at hoff hbase
        rw [regAddr, ← hoff, Nat.add_sub_cancel' hbase]
      exact hack v rest hv (haddr ▸ hp)
    · cases level with
      | true => exact absurd hp (hrst rest)
      | false => exact hshow
  · exact hshow

end Sys2Proof.Machine
end
